-- ==== Sys2Proof/Word.lean ====
section
/-! DEFINITION. The widths of the machine: a Bit, a Nybble (4 bits), a Byte (one tape cell) and an opcode word
(00_scope.md R6, 30_encoding.md R70). Their arithmetic is in Machine/Alu.lean. -/

namespace Sys2Proof

/-- A single binary digit (R100). -/
abbrev Bit := BitVec 1

/-- Four Bits, an unsigned value in [0,15] (R103). -/
abbrev Nybble := BitVec 4

/-- Two Nybbles, an unsigned value in [0,255]: one tape cell (R109, R117). -/
abbrev Byte := BitVec 8

/-- One instruction word, `OP_W = 4` (R70). -/
abbrev OpWord := BitVec 4

end Sys2Proof
end

