-- ==== Sys2Proof/Syntax.lean ====
section
/-! DEFINITION. The nine instructions (30_encoding.md R72): stateless tags, no operands (R73). -/

namespace Sys2Proof

/-- An Instruction: one of nine tags, a closed set (R72). One constructor per row of spec/opcode_table.json. -/
inductive Instr where
  /-- `>` (R170) -/
  | incrementPointer
  /-- `<` (R171) -/
  | decrementPointer
  /-- `+` (R180) -/
  | incrementValue
  /-- `-` (R181) -/
  | decrementValue
  /-- `.` (R190) -/
  | outputValue
  /-- `,` (R193) -/
  | inputValue
  /-- `[` (R210) -/
  | jumpForward
  /-- `]` (R211) -/
  | jumpBackward
  /-- no source character (R212, R81) -/
  | noOp
  deriving DecidableEq, Repr

end Sys2Proof
end

