-- ==== Sys2Proof/WellFormed.lean ====
section
/-! DEFINITION. What makes words and programs well formed. An instruction has no operand (R73), so every `Instr` is
well formed; what can be ill formed is an opcode word (R75) and the bracket structure of a program (R132, R133).
The bracket check here counts depth and builds no table: it is written apart from the scan of Machine/Loader.lean, so
that the two can be proved to agree. -/

namespace Sys2Proof

/-- The word spells an instruction: `0x0` to `0x8` (R71, R77). -/
def OpWord.wf (w : OpWord) : Bool := w.toNat < 9

/-- `balancedFrom d is`: with `d` loops open, `is` never closes a loop that is not open and ends with none open. -/
def balancedFrom : Nat → List Instr → Bool
  | d, [] => d == 0
  | d, i :: is =>
    match i with
    | .jumpForward => balancedFrom (d + 1) is
    | .jumpBackward =>
      match d with
      | 0 => false
      | d' + 1 => balancedFrom d' is
    | .incrementPointer | .decrementPointer | .incrementValue | .decrementValue
    | .outputValue | .inputValue | .noOp => balancedFrom d is

/-- Every `[` has its `]` and the reverse: the brackets are balanced (R222). -/
def balanced (is : List Instr) : Bool := balancedFrom 0 is

end Sys2Proof
end

