-- ==== Sys2Proof/Decode.lean ====
section
/-! DEFINITION. The decoder, total on 4-bit words (30_encoding.md R77), the encoder, the reading of a word numbered as
spec/opcode_table.json numbers it, and the assembler's character map (R79 to R82). log 12 -/

namespace Sys2Proof

/-- What a word decodes to: an instruction, or `invalid` (R77). -/
inductive Decoded where
  | instr (i : Instr)
  /-- A reserved encoding, `0x9` to `0xF` (R75). -/
  | invalid
  deriving DecidableEq, Repr

/-- The opcode assignment of R71; the word alone decides (R77). -/
def decode (w : OpWord) : Decoded :=
  match w.toNat with
  | 0x0 => .instr .incrementPointer
  | 0x1 => .instr .decrementPointer
  | 0x2 => .instr .incrementValue
  | 0x3 => .instr .decrementValue
  | 0x4 => .instr .outputValue
  | 0x5 => .instr .inputValue
  | 0x6 => .instr .jumpForward
  | 0x7 => .instr .jumpBackward
  | 0x8 => .instr .noOp
  | _ => .invalid

/-- The word of an instruction (R71). -/
def encode : Instr → OpWord
  | .incrementPointer => 0b0000
  | .decrementPointer => 0b0001
  | .incrementValue => 0b0010
  | .decrementValue => 0b0011
  | .outputValue => 0b0100
  | .inputValue => 0b0101
  | .jumpForward => 0b0110
  | .jumpBackward => 0b0111
  | .noOp => 0b1000

/-- The instruction whose bits are the low `nbits` bits of `w`. An instruction is one word of 4 bits, so every bit above
them is 0 (R70); a number with a bit set there is no instruction's word. log 16 -/
def decodeTableWord (nbits w : Nat) : Option Instr :=
  let v := w % 2 ^ nbits
  if v < 16 then
    match decode (BitVec.ofNat 4 v) with
    | .instr i => some i
    | .invalid => none
  else none

/-- The instruction a source character stands for; every other character is a comment (R79, R80). log 17 -/
def Instr.ofChar (c : Char) : Option Instr :=
  if c = '>' then some .incrementPointer
  else if c = '<' then some .decrementPointer
  else if c = '+' then some .incrementValue
  else if c = '-' then some .decrementValue
  else if c = '.' then some .outputValue
  else if c = ',' then some .inputValue
  else if c = '[' then some .jumpForward
  else if c = ']' then some .jumpBackward
  else none

/-- The source character of an instruction; NoOp has none (R79, R81). -/
def Instr.toChar : Instr → Option Char
  | .incrementPointer => some '>'
  | .decrementPointer => some '<'
  | .incrementValue => some '+'
  | .decrementValue => some '-'
  | .outputValue => some '.'
  | .inputValue => some ','
  | .jumpForward => some '['
  | .jumpBackward => some ']'
  | .noOp => none

/-- The parser's reading of a source text: one instruction per command character, in the order of the text, comments
dropped (R79, R80, R82). -/
def assemble (text : List Char) : List Instr := text.filterMap Instr.ofChar

end Sys2Proof
end

