-- ==== Sys2Proof/Config.lean ====
section
/-! DEFINITION. What is fixed when a machine is constructed (00_scope.md R7, R10), and the free values: what the I/O
collaborator presents at each sample of its wires, which the spec leaves to the environment (R39, U19, U20). -/

namespace Sys2Proof.Machine

/-- The parameters of one instance. They are arguments of construction and never change (R7, R39, R250).
log 1, log 2. -/
structure Params where
  /-- `TAPE_LEN`, the number of cells, at least 1 (R7). -/
  tapeLen : Nat
  /-- `IMEM_CAP`, the longest program the instance holds; `none` is the unbounded store R10 and R143 allow. -/
  imemCap : Option Nat
  deriving DecidableEq, Repr

/-- The default instance: 30000 cells (R7). DESIGN CHOICE: no bound on the program (log 2). -/
def Params.default : Params := { tapeLen := 30000, imemCap := none }

end Sys2Proof.Machine

namespace Sys2Proof

/-- FREE VALUE: the level of `out_ready` at the n-th sample of the output channel, where the state does not already
say what it is (U20, log 3). -/
opaque Config.outReady : Nat → Bool

/-- FREE VALUE: the level of `in_valid` at the n-th sample of the input channel (U20, log 3). -/
opaque Config.inValid : Nat → Bool

/-- FREE VALUE: the level of `in_eof` at the n-th sample of the input channel (U19, log 3). -/
opaque Config.inEof : Nat → Bool

/-- FREE VALUE: `in_data` at the n-th sample of the input channel (U19, log 3). -/
opaque Config.inData : Nat → Byte

end Sys2Proof
end

