-- ==== Sys2Proof/Machine/State.lean ====
section
/-! DEFINITION. The state of the machine (10_state.md), as plain data, the reasons a step can stop, and reset (R36). -/

namespace Sys2Proof.Machine

/-- The tape's contents: (address, byte) pairs in one canonical form, `Memory.wf` of Machine/Ops.lean. -/
abbrev Memory := List Host.Cell

/-- A Program: the instruction store and the jump table, always replaced together (R26, R130, R262). `jt` has one entry
per instruction index: at a jump the index of its counterpart, `none` at any other instruction (R28, R29). -/
structure Program where
  imem : List Instr
  jt   : List (Option Nat)
  deriving DecidableEq, Repr

/-- What the machine is suspended on (R33). -/
inductive IoWait where
  /-- inside OutputValue, waiting for `out_ready` -/
  | out
  /-- inside InputValue, waiting for `in_valid` -/
  | inp
  deriving DecidableEq, Repr

/-- One sample of the input channel's wires, driven by the collaborator (R159, R195). -/
structure InPins where
  /-- `in_valid`: the collaborator answers -/
  valid : Bool
  /-- `in_eof`: the answer is end of input; `data` is then ignored -/
  eof   : Bool
  /-- `in_data` -/
  data  : Byte
  deriving DecidableEq, Repr

/-- One completed transaction with the collaborator (R197). -/
inductive IoEvent where
  /-- `write_byte(v)` -/
  | out (v : Byte)
  /-- `read_byte()` and its answer, `none` for end of input (R196) -/
  | inp (r : Option Byte)
  deriving DecidableEq, Repr

/-- The I/O collaborator's side: THE MODEL'S OWN fields, no state of the machine (R39). `outReady` and `inPins` are the
samples it is already known to present, oldest first; past their end a sample is a free value of Config at the counter.
`events` records the transactions made, oldest first (R161). No statement rests on a value of these. log 3, log 4, log 11 -/
structure Env where
  outReady   : List Bool
  inPins     : List InPins
  outSamples : Nat
  inSamples  : Nat
  events     : List IoEvent
  deriving DecidableEq, Repr

/-- The state tuple of 10_state.md, with the parameters of the instance and the collaborator's side beside it. -/
structure State where
  /-- `TAPE_LEN` and `IMEM_CAP`: fixed at construction (R7, R10) -/
  params  : Params
  /-- the memory tape (R21) -/
  tape    : Memory
  /-- the data pointer, `memory_pointer` (R22) -/
  dp      : Nat
  /-- the program counter, `program_counter` (R24) -/
  pc      : Nat
  /-- the loaded Program: `imem`, `plen` (its length), `jt` (R26 to R28) -/
  program : Program
  /-- suspended on I/O, or not (R33) -/
  ioWait  : Option IoWait
  /-- the model's own: the collaborator -/
  env     : Env
  deriving DecidableEq, Repr

/-- Why a step ends in a fault. -/
inductive Fault where
  /-- Raised by IncrementPointer at the last cell and DecrementPointer at cell 0 (R223, R224). The spec's one run-time
  fault; the step is rejected whole. Safe: it is what the spec says. -/
  | pointerOutOfBounds
  /-- Raised by a cell access whose address is not below `TAPE_LEN`, an address that does not exist (R57, R58). No run
  reaches it: `dp` stays in range. Safe: the model stops. log 8 -/
  | cellOutsideTape
  deriving DecidableEq, Repr

/-- Why the model gives no meaning. -/
inductive Refusal where
  /-- An instruction without a meaning, rejected by name in exec's arm. No instruction is. Safe. -/
  | notModelled (mnemonic : String)
  /-- A taken jump found no jump-table entry at its index: "a model keeps a partial map and refuses a read there" (U13).
  No loaded Program has such a jump (R136, R228). Safe: the model stops. log 9 -/
  | jumpTableEntryMissing
  /-- Construction of a machine with `TAPE_LEN = 0` (R7, U10). Raised by `constructMachine`, never by a step. Safe. -/
  | tapeLengthZero
  /-- LOAD of a program longer than `IMEM_CAP` (R143, U11). Raised by the LOAD command (the reply `refused`), never by a step. Safe. log 2 -/
  | programTooLong
  deriving DecidableEq, Repr

/-- What one transition answers. -/
abbrev Result := Host.Outcome State Fault Refusal

/-- The empty Program: `plen = 0`, empty table (R27, R36). -/
def Program.empty : Program := { imem := [], jt := [] }

/-- A collaborator of which nothing is known: every sample is a free value, nothing recorded. DESIGN CHOICE log 4 -/
def Env.fresh : Env := { outReady := [], inPins := [], outSamples := 0, inSamples := 0, events := [] }

/-- The machine just constructed: every cell 0, `dp = 0`, `pc = 0`, the empty Program, not suspended (R36, R250). -/
def State.fresh (p : Params) (e : Env) : State :=
  { params := p, tape := [], dp := 0, pc := 0, program := .empty, ioWait := none, env := e }

/-- The machine right after reset, at the default tape length (R7, R36). -/
def State.reset : State := .fresh .default .fresh

end Sys2Proof.Machine
end

