-- ==== Sys2Proof/Machine/Ops.lean ====
section
/-! DEFINITION. The named operations over the tape, the registers and the I/O channels, and the abort of a step: every
meaning is written over these. -/

namespace Sys2Proof.Machine

/-! ## The tape -/

/-- What an unlisted address reads as: every cell is 0 after reset (R36). log 18 -/
def Memory.unlisted : Byte := 0

/-- Read of one cell; no side effect (R56). -/
def Memory.read : Memory → Nat → Byte
  | [], _ => Memory.unlisted
  | (k, v) :: m, a => if a = k then v else Memory.read m a

/-- Write of one cell, all 8 bits of it and no other cell (R56), keeping the canonical form. -/
def Memory.write : Memory → Nat → Byte → Memory
  | [], a, b => if b = Memory.unlisted then [] else [(a, b)]
  | (k, v) :: m, a, b =>
    if a < k then (if b = Memory.unlisted then (k, v) :: m else (a, b) :: (k, v) :: m)
    else if a = k then (if b = Memory.unlisted then m else (a, b) :: m)
    else (k, v) :: Memory.write m a b

/-- The canonical form: addresses strictly rising, nothing listed that reads as an unlisted address does. -/
abbrev Memory.wf (m : Memory) : Prop :=
  m.Pairwise (fun c d => c.1 < d.1) ∧ ∀ c ∈ m, c.2 ≠ Memory.unlisted

/-! ## The registers -/

/-- `tape` replaced. -/
def State.setTape (s : State) (m : Memory) : State := { s with tape := m }

/-- `dp <- d`. -/
def State.setDp (s : State) (d : Nat) : State := { s with dp := d }

/-- `pc <- p`. -/
def State.setPc (s : State) (p : Nat) : State := { s with pc := p }

/-- `imem`, `plen` and `jt` replaced together (R26, R262). -/
def State.setProgram (s : State) (P : Program) : State := { s with program := P }

/-- `io_wait <- w`. -/
def State.setIoWait (s : State) (w : Option IoWait) : State := { s with ioWait := w }

/-- The collaborator's side replaced. -/
def State.setEnv (s : State) (e : Env) : State := { s with env := e }

/-- The default advance, `pc <- pc + 1` (R154). -/
def State.advance (s : State) : State := s.setPc (s.pc + 1)

/-- `MemRead(a, 1)`. -/
def State.memRead (s : State) (a : Nat) : Byte := s.tape.read a

/-- `MemWrite(a, 1, v)`: into the tape's own storage (R62). -/
def State.memWrite (s : State) (a : Nat) (v : Byte) : State := s.setTape (s.tape.write a v)

/-! ## Taking an exception, and the current cell -/

/-- An aborted step: rejected whole, so the state after it is the state before it, and the fault is the outcome the host
receives (R224, R232). There is no handler, nothing is saved, and there is no return (R232, R233): the outcome carries
no state because no state changed. log 15 -/
def abortStep (f : Fault) (_before : State) : Result := .fault f

/-- Work on the current cell `tape[dp]`, the only addressing mode (R51). `dp` is in range in every state a run reaches
(R58); where it is not, the cell does not exist and the step is aborted. log 8 -/
def atCell (s : State) (work : Byte → Result) : Result :=
  if s.dp < s.params.tapeLen then work (s.memRead s.dp) else abortStep .cellOutsideTape s

/-- Read-modify-write of the current cell, then the default advance (R180, R181). -/
def updateCell (f : Byte → Byte) (s : State) : Result :=
  atCell s fun v => .next (s.memWrite s.dp (f v)).advance

/-! ## The I/O channels -/

/-- The level of `out_ready` at this sample (R192). log 3 -/
def Env.outReadyNow (e : Env) : Bool :=
  match e.outReady with
  | r :: _ => r
  | [] => Config.outReady e.outSamples

/-- The input wires at this sample (R195). log 3 -/
def Env.inPinsNow (e : Env) : InPins :=
  match e.inPins with
  | p :: _ => p
  | [] => { valid := Config.inValid e.inSamples, eof := Config.inEof e.inSamples, data := Config.inData e.inSamples }

/-- One sample of the output channel is past. -/
def Env.nextOut (e : Env) : Env := { e with outReady := e.outReady.tail, outSamples := e.outSamples + 1 }

/-- One sample of the input channel is past. -/
def Env.nextIn (e : Env) : Env := { e with inPins := e.inPins.tail, inSamples := e.inSamples + 1 }

/-- One transaction is recorded (R161, R197). -/
def Env.record (e : Env) (x : IoEvent) : Env := { e with events := e.events ++ [x] }

/-- The answer of `read_byte` on these wires: none yet (`in_valid = 0`), end of input (`in_eof = 1`, `in_data` ignored),
or a byte (R195). -/
def InPins.answer (p : InPins) : Option (Option Byte) :=
  if p.valid then (if p.eof then some none else some (some p.data)) else none

/-- The transfer has happened: `io_wait <- None`, one event, `pc <- pc + 1` (R192, R195). -/
def State.completeIo (s : State) (x : IoEvent) : State :=
  ((s.setEnv (s.env.record x)).setIoWait none).advance

/-- The output channel with `out_valid = 1` and `out_data = v`: transferred if `out_ready = 1` at this sample, else
suspended (R191, R192). -/
def State.offerOutput (s : State) (v : Byte) : State :=
  let s' := s.setEnv s.env.nextOut
  if s.env.outReadyNow then s'.completeIo (.out v) else s'.setIoWait (some .out)

/-- The input channel with `in_req = 1`: a byte is stored in the current cell, end of input stores nothing, and without
an answer the machine is suspended (R193 to R195). -/
def State.requestInput (s : State) : State :=
  let s' := s.setEnv s.env.nextIn
  match s.env.inPinsNow.answer with
  | none => s'.setIoWait (some .inp)
  | some none => s'.completeIo (.inp none)
  | some (some b) => (s'.memWrite s.dp b).completeIo (.inp (some b))

/-- One moment of an output transfer: at its dispatch (R191) or while suspended in it (R192). `out_data` is the current
cell, which nothing changes in between. log 5 -/
def outputTransfer (s : State) : Result :=
  atCell s fun v => .next (s.offerOutput v)

/-- One moment of an input transfer: at its dispatch (R194) or while suspended in it (R195). log 5 -/
def inputTransfer (s : State) : Result :=
  atCell s fun _ => .next s.requestInput

end Sys2Proof.Machine
end

