-- ==== Sys2Proof/Machine/Operands.lean ====
section
/-! DEFINITION. The implicit operands (30_encoding.md R73): the instruction at an index, the jump-table entry `JT(pc)`. The
current cell is `atCell` of Machine/Ops.lean. -/

namespace Sys2Proof.Machine

/-- `length()` (R138): the instruction count, `plen` (R27). log 18 -/
def Program.plen (P : Program) : Nat := P.imem.length

/-- `get_instruction(p)` (R137): `none` is "no instruction". -/
def Program.getInstruction (P : Program) (p : Nat) : Option Instr := P.imem[p]?

/-- `Fetch(p)`: NoOp at or past the end; a fetch never faults (R151). -/
def Program.fetch (P : Program) (p : Nat) : Instr :=
  match P.getInstruction p with
  | some i => i
  | none => .noOp

/-- `JT(p)` (R28, R29): the absolute index of the counterpart (R74). -/
def Program.target (P : Program) (p : Nat) : Option Nat :=
  match P.jt[p]? with
  | some e => e
  | none => none

/-- `plen` of the loaded Program. -/
abbrev State.plen (s : State) : Nat := s.program.plen

/-- Work on `JT(pc)` (R74). A jump of a loaded Program has its entry (R136); where there is none the model refuses the
read (U13). log 9 -/
def atTarget (s : State) (work : Nat → Result) : Result :=
  match s.program.target s.pc with
  | some t => work t
  | none => .refused .jumpTableEntryMissing

end Sys2Proof.Machine
end

