-- ==== Sys2Proof/Machine/Loader.lean ====
section
/-! DEFINITION. Program construction, the bracket-matching unit and LOAD (41_program_jump_table.md). Construction touches no
machine state (R130, R135); LOAD installs what was constructed (R141). -/

namespace Sys2Proof.Machine

/-- The two ways brackets are unbalanced (R134). -/
inductive Unmatched where
  /-- UnmatchedClose: a `]` with no loop open (R132) -/
  | closing
  /-- UnmatchedOpen: a `[` left open at the end (R133) -/
  | opening
  deriving DecidableEq, Repr

/-- Why a construction fails, with the index it records (R134, R227). -/
inductive ConstructError where
  /-- InvalidOpcode: the first word that decodes to `invalid` (R227) -/
  | invalidOpcode (index : Nat)
  /-- MalformedProgram: the offending `]`, or the lowest `[` left open (R134, R222) -/
  | malformedProgram (kind : Unmatched) (index : Nat)
  deriving DecidableEq, Repr

/-- Step 1 of `Construct` (R131): decode every word; the words given start at index `k`. -/
def decodeWords : Nat → List OpWord → Except ConstructError (List Instr)
  | _, [] => .ok []
  | k, w :: ws =>
    match decode w with
    | .invalid => .error (.invalidOpcode k)
    | .instr i =>
      match decodeWords (k + 1) ws with
      | .error e => .error e
      | .ok is => .ok (i :: is)

/-- The matching unit's state during the scan (R34): the stack of pending JumpForward indices, latest first, and the jump
table so far, one entry per index passed. -/
structure Scan where
  stack : List Nat
  jt    : List (Option Nat)
  deriving DecidableEq, Repr

/-- One instruction of the scan, at index `k` (R131, step 2). Only the two jumps take part (R140). -/
def scanStep (k : Nat) (i : Instr) (sc : Scan) : Except ConstructError Scan :=
  match i with
  | .jumpForward => .ok { stack := k :: sc.stack, jt := sc.jt ++ [none] }
  | .jumpBackward =>
    match sc.stack with
    | [] => .error (.malformedProgram .closing k)
    | j :: rest => .ok { stack := rest, jt := sc.jt.set j (some k) ++ [some j] }
  | .incrementPointer | .decrementPointer | .incrementValue | .decrementValue
  | .outputValue | .inputValue | .noOp => .ok { sc with jt := sc.jt ++ [none] }

/-- The scan: one pass in increasing index order, the instructions given starting at index `k` (R131, R139). -/
def scan : Nat → List Instr → Scan → Except ConstructError Scan
  | _, [], sc => .ok sc
  | k, i :: is, sc =>
    match scanStep k i sc with
    | .error e => .error e
    | .ok sc' => scan (k + 1) is sc'

/-- Step 3 of `Construct` (R131): anything left on the stack is an unmatched `[`; the bottom one is recorded (R134). -/
def closeScan (is : List Instr) (sc : Scan) : Except ConstructError Program :=
  match sc.stack.getLast? with
  | none => .ok { imem := is, jt := sc.jt }
  | some bottom => .error (.malformedProgram .opening bottom)

/-- `Construct` on tags: steps 2 and 3 (R131). -/
def buildProgram (is : List Instr) : Except ConstructError Program :=
  match scan 0 is { stack := [], jt := [] } with
  | .error e => .error e
  | .ok sc => closeScan is sc

/-- `Construct(words)` (R131): decode every word first, so that InvalidOpcode wins (R231), then match the brackets. -/
def construct (ws : List OpWord) : Except ConstructError Program :=
  match decodeWords 0 ws with
  | .error e => .error e
  | .ok is => buildProgram is

/-- LOAD of a constructed Program (R141): the three together, `pc <- 0`; tape and `dp` stay (R37). -/
def State.install (s : State) (P : Program) : State := (s.setProgram P).setPc 0

/-- Does the instance hold a program of `n` instructions (R10, R143)? log 2 -/
def Params.fits (p : Params) (n : Nat) : Bool :=
  match p.imemCap with
  | none => true
  | some cap => decide (n ≤ cap)

/-- A program in which an instruction can be fetched, and the index it stands at: alone, or for a jump the pair `[]`,
since a jump alone is no Program (R133). log 7 -/
def fetchContext : Instr → List Instr × Nat
  | .jumpForward => ([.jumpForward, .jumpBackward], 0)
  | .jumpBackward => ([.jumpForward, .jumpBackward], 1)
  | .incrementPointer => ([.incrementPointer], 0)
  | .decrementPointer => ([.decrementPointer], 0)
  | .incrementValue => ([.incrementValue], 0)
  | .decrementValue => ([.decrementValue], 0)
  | .outputValue => ([.outputValue], 0)
  | .inputValue => ([.inputValue], 0)
  | .noOp => ([.noOp], 0)

/-- LOAD of that program, with `pc` at the instruction and nothing suspended, so that the next STEP fetches it. log 7 -/
def State.placeForFetch (s : State) (i : Instr) : State :=
  match buildProgram (fetchContext i).1 with
  | .error _ => s
  | .ok P => ((s.install P).setPc (fetchContext i).2).setIoWait none

end Sys2Proof.Machine
end

