-- ==== Sys2Proof/Machine/Alu.lean ====
section
/-! DEFINITION. The cell ALU of 40_cell_alu.md: Bit, Nybble, Byte, the 4-bit increment and decrement units and the 8-bit
ones chained from them. Pure functions of their arguments; none reads or writes the machine. -/

namespace Sys2Proof.Machine

/-- `bit_from`: masking to one bit (R102). -/
def bitFrom (n : Nat) : Bit := BitVec.ofNat 1 n

/-- `bit_to_int`: the Bit as an 8-bit integer, 0 or 1 (R102). -/
def bitToInt (b : Bit) : Byte := b.setWidth 8

/-- `to_bool` (R101): 1 is true. log 17 -/
def bitToBool (b : Bit) : Bool := b == 1

/-- `from_bool` (R101). -/
def bitFromBool (t : Bool) : Bit := if t then 1 else 0

/-- `nyb_from`: the low four bits; the high ones are dropped without error (R105). -/
def nybFrom (u : Byte) : Nybble := u.extractLsb' 0 4

/-- `nyb_to_int`: widened with zeros (R105). -/
def nybToInt (n : Nybble) : Byte := n.setWidth 8

/-- `seq(v)[k]`, the indexed access: index 0 is the MOST significant Bit; an index past the width has no value, where
"a model refuses it" (R104, U14). -/
def bitAt {w : Nat} (v : BitVec w) (k : Nat) : Option Bit :=
  if k < w then some (v.extractLsb' (w - 1 - k) 1) else none

/-- `seq(v)`: the Bits most significant first (R104, R108, R110). -/
def bitSeq {w : Nat} (v : BitVec w) : List Bit :=
  (List.range w).map fun k => v.extractLsb' (w - 1 - k) 1

/-- `inc4`: increment with wraparound, and whether it wrapped (R106). -/
def inc4 (n : Nybble) : Nybble × Bit := (n + 1, if n = 0xF then 1 else 0)

/-- `dec4`: decrement with wraparound, and whether it wrapped (R107). -/
def dec4 (n : Nybble) : Nybble × Bit := (n - 1, if n = 0x0 then 1 else 0)

/-- The high Nybble, `b[7:4]` (R109). -/
def high (b : Byte) : Nybble := b.extractLsb' 4 4

/-- The low Nybble, `b[3:0]` (R109). -/
def low (b : Byte) : Nybble := b.extractLsb' 0 4

/-- `high ++ low` (R109). -/
def composeByte (hi lo : Nybble) : Byte := hi ++ lo

/-- `byte_from`: masking to eight bits (R109). -/
def byteFrom (u : Nat) : Byte := BitVec.ofNat 8 u

/-- `byte_to_int`: `high * 16 + low` (R109). -/
def byteToInt (b : Byte) : Nat := (high b).toNat * 16 + (low b).toNat

/-- `is_zero8`: all eight Bits are 0 (R111). -/
def isZero8 (b : Byte) : Bool := b == byteFrom 0

/-- `inc8`: two 4-bit units chained by the carry; the carry out of the high one is discarded (R112). -/
def inc8 (b : Byte) : Byte :=
  let (lo, c) := inc4 (low b)
  let (hi, _) := if c = 1 then inc4 (high b) else (high b, 0)
  composeByte hi lo

/-- `dec8`: two 4-bit units chained by the borrow; the borrow out of the high one is discarded (R113). -/
def dec8 (b : Byte) : Byte :=
  let (lo, w) := dec4 (low b)
  let (hi, _) := if w = 1 then dec4 (high b) else (high b, 0)
  composeByte hi lo

end Sys2Proof.Machine
end

