-- ==== Sys2Proof/Machine/CellValue.lean ====
section
/-! DEFINITION. The cell-value instructions (44_cell_value.md): load, 8-bit unit, store back into the same slot (R62). -/

namespace Sys2Proof.Machine

/-- IncrementValue (R180). -/
def execIncrementValue (s : State) : Result := updateCell inc8 s

/-- DecrementValue (R181). -/
def execDecrementValue (s : State) : Result := updateCell dec8 s

end Sys2Proof.Machine
end

