-- ==== Sys2Proof/Machine/Io.lean ====
section
/-! DEFINITION. The I/O instructions (45_io.md), the only suspension points (R197). Dispatch is the first moment of the transfer;
a machine left suspended takes further moments in Machine/Step.lean. -/

namespace Sys2Proof.Machine

/-- OutputValue (R190 to R192). -/
def execOutputValue (s : State) : Result := outputTransfer s

/-- InputValue (R193 to R195). -/
def execInputValue (s : State) : Result := inputTransfer s

end Sys2Proof.Machine
end

