-- ==== Sys2Proof/Machine/Flags.lean ====
section
/-! DEFINITION. The machine has no status flags and no condition codes (10_state.md R30). The one condition an instruction
tests is computed when it executes; what the host sees of the machine's condition are outputs computed from the state
(R31, R159). -/

namespace Sys2Proof.Machine

/-- "The current cell is zero", on all 8 bits, computed at the moment a jump executes (R30, R111). -/
def State.cellIsZero (s : State) : Bool := isZero8 (s.memRead s.dp)

/-- `halted`: `pc == plen` (R31, R150). -/
def State.halted (s : State) : Bool := s.pc == s.plen

/-- `running`: `pc < plen` (R31, R150). -/
def State.running (s : State) : Bool := decide (s.pc < s.plen)

/-- `busy`: suspended on the collaborator (R31). -/
def State.busy (s : State) : Bool := s.ioWait.isSome

/-- `out_valid` (R191). -/
def State.outValid (s : State) : Bool := s.ioWait == some .out

/-- `out_data`: the current cell, offered while `out_valid` (R191). DESIGN CHOICE (log 21): no value while `out_valid` is 0;
the spec does not say what the wire then carries. -/
def State.outData (s : State) : Option Byte := if s.outValid then some (s.memRead s.dp) else none

/-- `in_req` (R194). -/
def State.inReq (s : State) : Bool := s.ioWait == some .inp

/-- `DP_W = max(1, ceil(log2(TAPE_LEN)))` (R22, 00_scope.md parameter table). -/
def Params.dpWidth (p : Params) : Nat := max 1 (Nat.clog 2 p.tapeLen)

/-- `PC_W = max(1, ceil(log2(IMEM_CAP + 1)))`; no width where the store has no bound (R24, 00_scope.md). log 2 -/
def Params.pcWidth (p : Params) : Option Nat := p.imemCap.map fun cap => max 1 (Nat.clog 2 (cap + 1))

end Sys2Proof.Machine
end

