-- ==== Sys2Proof/Machine/Jumps.lean ====
section
/-! DEFINITION. Control transfer and NoOp (46_jumps_noop.md). Where a taken jump lands is 90_conflicts.md C1. -/

namespace Sys2Proof.Machine

/-- JumpForward (R210): taken on a zero cell, landing after the matching JumpBackward. -/
def execJumpForward (s : State) : Result :=
  atCell s fun v => if isZero8 v then atTarget s fun t => .next (s.setPc (t + 1)) else .next s.advance

/-- JumpBackward (R211): taken on a nonzero cell, landing on the matching JumpForward itself. -/
def execJumpBackward (s : State) : Result :=
  atCell s fun v => if isZero8 v then .next s.advance else atTarget s fun t => .next (s.setPc t)

/-- NoOp (R212), standing in the program. -/
def execNoOp (s : State) : Result := .next s.advance

end Sys2Proof.Machine
end

