-- ==== Sys2Proof/Machine/Pointer.lean ====
section
/-! DEFINITION. The data-pointer instructions (43_pointer.md). The bound is checked before `dp` is written; the pointer never
wraps (R8, R23). -/

namespace Sys2Proof.Machine

/-- IncrementPointer (R170). -/
def execIncrementPointer (s : State) : Result :=
  if s.params.tapeLen ≤ s.dp + 1 then abortStep .pointerOutOfBounds s
  else .next (s.setDp (s.dp + 1)).advance

/-- DecrementPointer (R171). -/
def execDecrementPointer (s : State) : Result :=
  if s.dp = 0 then abortStep .pointerOutOfBounds s
  else .next (s.setDp (s.dp - 1)).advance

end Sys2Proof.Machine
end

