-- ==== Sys2Proof/Machine/Dispatch.lean ====
section
/-! DEFINITION. Dispatch: a choice on the tag alone, every tag with an arm (42_sequencer.md R155). -/

namespace Sys2Proof.Machine

def exec (i : Instr) (s : State) : Host.Outcome State Fault Refusal :=
  match i with
  | .incrementPointer => Sys2Proof.Machine.execIncrementPointer s
  | .decrementPointer => Sys2Proof.Machine.execDecrementPointer s
  | .incrementValue => Sys2Proof.Machine.execIncrementValue s
  | .decrementValue => Sys2Proof.Machine.execDecrementValue s
  | .outputValue => Sys2Proof.Machine.execOutputValue s
  | .inputValue => Sys2Proof.Machine.execInputValue s
  | .jumpForward => Sys2Proof.Machine.execJumpForward s
  | .jumpBackward => Sys2Proof.Machine.execJumpBackward s
  | .noOp => Sys2Proof.Machine.execNoOp s

end Sys2Proof.Machine
end

