-- ==== Sys2Proof/Machine/Sequencer.lean ====
section
/-! DEFINITION. The sequencer (42_sequencer.md R152): the host's STEP command when the machine is not suspended, one more moment of
the pending transfer when it is (45_io.md R192, R195). -/

namespace Sys2Proof.Machine

/-- STEP, accepted when nothing is pending (R152): in Halted nothing changes (R153); otherwise the instruction at `pc` is
fetched and dispatched (R151, R155), and its meaning sets `pc` (R154). log 10 -/
def stepCommand (s : State) : Result :=
  if s.pc = s.plen then .next s else exec (s.program.fetch s.pc) s

/-- One transition. While suspended the earlier STEP has not returned (R156), and what can happen is the collaborator's
completion of the transfer (R192, R195). log 6 -/
def transition (s : State) : Result :=
  match s.ioWait with
  | some .out => outputTransfer s
  | some .inp => inputTransfer s
  | none => stepCommand s

end Sys2Proof.Machine
end

