-- ==== Sys2Proof/Machine/Step.lean ====
section
/-! DEFINITION. The two fixed names over the sequencer and the loader: one transition, and the placing of a word where the next
transition fetches. -/

namespace Sys2Proof.Machine

/-- One transition of the machine: Machine/Sequencer.lean. log 6 -/
def step (s : State) : Host.Outcome State Fault Refusal := transition s

/-- `s` with the instruction of this word standing where the next step fetches; a word that spells no instruction is
refused at construction, so nothing is placed (R75). log 7 -/
def State.withFetchWord (s : State) (nbits w : Nat) : State :=
  match decodeTableWord nbits w with
  | none => s
  | some i => s.placeForFetch i

end Sys2Proof.Machine
end

