-- ==== Sys2Proof/Machine/HostPort.lean ====
section
/-! DEFINITION. The host's side of the machine, at the level of commands (42_sequencer.md R156, R159): reset, LOAD, STEP, their
priority, their results, and the read-only view between steps. log 14 -/

namespace Sys2Proof.Machine

/-- The names a result port carries (R221). -/
inductive Cause where
  | ok
  | malformedProgram
  | pointerOutOfBounds
  | invalidOpcode
  deriving DecidableEq, Repr

/-- The 2-bit cause codes (R221). -/
def Cause.code : Cause → BitVec 2
  | .ok => 0
  | .malformedProgram => 1
  | .pointerOutOfBounds => 2
  | .invalidOpcode => 3

/-- The cause a failed construction reports on `load_result` (R159, R222, R227). -/
def ConstructError.cause : ConstructError → Cause
  | .invalidOpcode _ => .invalidOpcode
  | .malformedProgram _ _ => .malformedProgram

/-- A host command (R11, R159). LOAD carries the words presented on the load port, in index order. -/
inductive Command where
  | reset
  | load (words : List OpWord)
  | step
  deriving DecidableEq, Repr

/-- What the host receives. -/
inductive Reply where
  /-- the command has completed, with this cause (R221) -/
  | done (c : Cause)
  /-- a STEP that is suspended: its outcome, `Ok`, comes from `State.resumeNow` when the transfer completes (R156) -/
  | suspended
  /-- presented while `busy`: not taken, neither queued nor an error (R156) -/
  | notTaken
  /-- the model stops: LOAD of a program above `IMEM_CAP` (R143, U11), or a STEP it refuses. log 2, log 9 -/
  | refused (r : Refusal)
  /-- the model stops: a STEP in a state no run reaches. log 8 -/
  | stopped (f : Fault)
  deriving DecidableEq, Repr

/-- The code on the result port of the command that has completed, `load_result` or `step_result`; none before it has
(`step_done` is then 0). Not stored: it is read off the command's return (R31, R159, R221). DESIGN CHOICE (log 21): no value
before the command completes; the spec says only when the port is valid. -/
def Reply.result : Reply → Option (BitVec 2)
  | .done c => some c.code
  | .suspended | .notTaken | .refused _ | .stopped _ => none

/-- Construction of a machine (R250); a tape of no cells is refused (R7, U10). -/
def constructMachine (p : Params) (e : Env) : Except Refusal State :=
  if p.tapeLen = 0 then .error .tapeLengthZero else .ok (State.fresh p e)

/-- The reset command: the machine as constructed, at the same size (R250); the collaborator is not consulted, so a
pending transfer is abandoned and nothing of it is consumed (R199, R251). log 13 -/
def State.resetNow (s : State) : State := State.fresh s.params s.env

/-- LOAD (R131, R141): `Construct`, then install on Ok; on an error the machine is as before (R135). log 2 -/
def State.load (s : State) (ws : List OpWord) : State × Reply :=
  if s.params.fits ws.length then
    match construct ws with
    | .ok P => (s.install P, .done .ok)
    | .error e => (s, .done e.cause)
  else (s, .refused .programTooLong)

/-- One transition of an accepted STEP and what the host receives of it (R152): a fault leaves the state before it and is
the outcome (R224, R232); a transition that ends suspended has no outcome yet, any other completes the STEP with `Ok`
(R156). -/
def State.stepNow (s : State) : State × Reply :=
  match step s with
  | .next t => (t, if t.busy then .suspended else .done .ok)
  | .fault .pointerOutOfBounds => (s, .done .pointerOutOfBounds)
  | .fault .cellOutsideTape => (s, .stopped .cellOutsideTape)
  | .refused r => (s, .refused r)

/-- One moment of a STEP that is suspended, which is no command: when the collaborator completes the transfer the STEP
delivers its outcome, `Ok`; until then it is still suspended (R156, R192, R195). With nothing suspended there is no
earlier STEP to answer for, and nothing happens. -/
def State.resumeNow (s : State) : State × Option Reply :=
  if s.busy then (s.stepNow.1, some s.stepNow.2) else (s, none)

/-- One host command. Reset is taken at any time (R251); while `busy`, LOAD and STEP are not taken (R156, R142).
DESIGN CHOICE (log 19): that a reset is answered `done` with cause `Ok`; no rule gives it an outcome. -/
def State.command (s : State) : Command → State × Reply
  | .reset => (s.resetNow, .done .ok)
  | .load ws => if s.busy then (s, .notTaken) else s.load ws
  | .step => if s.busy then (s, .notTaken) else s.stepNow

/-- Commands presented together. -/
structure Strobes where
  rst  : Bool
  load : Option (List OpWord)
  step : Bool
  deriving DecidableEq, Repr

/-- `rst` wins over LOAD, LOAD over STEP; the losers are not taken (R159). -/
def Strobes.winner (c : Strobes) : Option Command :=
  if c.rst then some .reset
  else match c.load with
    | some ws => some (.load ws)
    | none => if c.step then some .step else none

/-- The read-only debug view of a cell, between steps (R38); it changes nothing. DESIGN CHOICE (log 20): no value for an
address at or above `TAPE_LEN`, which `DP_W` bits can carry, and none while `busy`; the spec gives neither a value. -/
def State.debugCell (s : State) (a : Nat) : Option Byte :=
  if s.busy then none else if a < s.params.tapeLen then some (s.memRead a) else none

end Sys2Proof.Machine
end

