-- ==== Sys2Proof/Safety.lean ====
section
/-! DEFINITION. The terms claims are stated in: the invariant of a state a run can be in, the ways a run can stand (R161), and
what a run reaches. -/

namespace Sys2Proof.Machine

/-- The jump table in the machine is the complete table of the Program in the machine (R255, R262): `Construct` on its
instructions gives this very Program. -/
abbrev Program.wf (P : Program) : Prop := buildProgram P.imem = .ok P

/-- Every listed cell is a cell of the tape (R21). -/
abbrev State.tapeInRange (s : State) : Prop := ∀ c ∈ s.tape, c.1 < s.params.tapeLen

/-- While suspended, `pc` holds the index of the I/O instruction (R33). -/
abbrev State.waitMatches (s : State) : Prop :=
  match s.ioWait with
  | none => True
  | some .out => s.program.getInstruction s.pc = some .outputValue
  | some .inp => s.program.getInstruction s.pc = some .inputValue

/-- What holds of the state at all times. -/
structure State.Inv (s : State) : Prop where
  /-- `TAPE_LEN >= 1` (R7) -/
  tapeLen_pos : 1 ≤ s.params.tapeLen
  /-- the memory's canonical form (the model's) -/
  tape_wf : s.tape.wf
  /-- the tape has exactly `TAPE_LEN` cells (R21) -/
  tape_inRange : s.tapeInRange
  /-- `0 <= dp < TAPE_LEN` (R22) -/
  dp_lt : s.dp < s.params.tapeLen
  /-- `0 <= pc <= plen` (R24) -/
  pc_le : s.pc ≤ s.plen
  /-- the Program was constructed (R255) -/
  program_wf : s.program.wf
  /-- the Program fits the store (R10) -/
  program_fits : s.params.fits s.plen = true
  /-- the suspended instruction is the one at `pc` (R33) -/
  wait_matches : s.waitMatches

/-- `n` transitions, stopping at the first fault or refusal: the host's `Core.run` at this machine, with its types written
out. -/
def run : Nat → State → Result
  | 0, s => .next s
  | n + 1, s =>
    match step s with
    | .next t => run n t
    | .fault f => .fault f
    | .refused r => .refused r

/-- `n` executions of one instruction, one after the other, stopping at the first fault or refusal. -/
def execTimes : Nat → Instr → State → Result
  | 0, _, s => .next s
  | n + 1, i, s =>
    match exec i s with
    | .next t => execTimes n i t
    | .fault f => .fault f
    | .refused r => .refused r

/-- A run has ended normally: Halted and not suspended (R161). -/
def State.Ended (s : State) : Prop := s.pc = s.plen ∧ s.ioWait = none

/-- The next STEP faults: the run is over for the host, but the state is not final (R161 a, R225). -/
def State.AtFault (s : State) : Prop := step s = .fault .pointerOutOfBounds

/-- Waiting on a transfer (R161 b). -/
def State.Suspended (s : State) : Prop := s.ioWait ≠ none

/-- What a driven machine reaches from a state: transitions, and the host's commands between them. -/
inductive Reaches : State → State → Prop where
  | refl (s : State) : Reaches s s
  | step {s t u : State} : Reaches s t → Machine.step t = .next u → Reaches s u
  | command {s t : State} (c : Command) : Reaches s t → Reaches s (t.command c).1

/-- A safe state: its step neither stops on a state the spec excludes nor is refused; the only stop is the spec's fault. -/
def State.Safe (s : State) : Prop :=
  (∃ t, step s = .next t) ∨ step s = .fault .pointerOutOfBounds

end Sys2Proof.Machine
end

