-- ==== Sys2Proof/Certificates/Slice0/Obligations.lean ====
section
/-! DEFINITION. The statements for the provers. Each docstring says which rule of spec/ it formalises, or, for a derived one, what
it rests on. No statement rests on a value of the model's own fields (`env`): each holds for every value of them. -/

open Sys2Proof Sys2Proof.Machine

/-! ## The cell ALU (40_cell_alu.md) -/

/-- R102, R105: the conversions of a Bit and a Nybble mask to the width, and back they widen with zeros. -/
def Obligations.BitAndNybbleConversionsMask : Prop :=
  (∀ n : Nat, (bitFrom n).toNat = n % 2 ∧ (bitToInt (bitFrom n)).toNat = n % 2) ∧
  (∀ u : Byte, (nybFrom u).toNat = u.toNat % 16) ∧ (∀ n : Nybble, (nybToInt n).toNat = n.toNat) ∧
  (∀ u : Byte, u.toNat ≤ 15 → nybToInt (nybFrom u) = u)

/-- R115: the two round-trip laws of the document. -/
def Obligations.ByteRoundTripLaws : Prop :=
  (∀ n : Nat, n ≤ 255 → byteToInt (byteFrom n) = n) ∧
  (∀ hi lo : Nybble, byteToInt (composeByte hi lo) = hi.toNat * 16 + lo.toNat)

/-- R108: iterating a Nybble yields exactly 4 Bits, most significant first, which read as binary are its value. -/
def Obligations.NybbleBitSequence : Prop :=
  ∀ n : Nybble, (bitSeq n).length = 4 ∧ (bitSeq n).foldl (fun acc b => 2 * acc + b.toNat) 0 = n.toNat

/-- R104 (the order, and that an index past the width has no value, are the spec's decision D18) and R110 (derived there):
the indexed access gives the item of the sequence, the bit of weight `2^(width-1-k)`, and nothing past the width; the
Bits of a Byte are those of its high Nybble, then those of its low one. -/
def Obligations.IndexedBitsMostSignificantFirst : Prop :=
  (∀ (w : Nat) (v : BitVec w) (k : Nat), (bitSeq v)[k]? = bitAt v k ∧ (w ≤ k → bitAt v k = none) ∧
    (k < w → ∃ x, bitAt v k = some x ∧ x.toNat = v.toNat / 2 ^ (w - 1 - k) % 2)) ∧
  ∀ b : Byte, bitSeq b = bitSeq (high b) ++ bitSeq (low b)

/-- R111: equality of Bytes is equality of the integers, of both Nybbles, of all eight Bits; zero is all Bits 0. -/
def Obligations.ByteEqualityAndZeroTest : Prop :=
  (∀ a b : Byte, (a = b ↔ byteToInt a = byteToInt b) ∧ (a = b ↔ high a = high b ∧ low a = low b) ∧
    (a = b ↔ bitSeq a = bitSeq b)) ∧
  (∀ b : Byte, (isZero8 b = true ↔ b = byteFrom 0) ∧ (isZero8 b = true ↔ ∀ x ∈ bitSeq b, x = 0))

/-- R106, R107 with the carry and borrow of decision D29: the 4-bit units wrap, and report exactly the wrap. -/
def Obligations.NybbleUnitsWrap : Prop :=
  ∀ n : Nybble,
    ((inc4 n).1.toNat = (n.toNat + 1) % 16 ∧ ((inc4 n).2 = 1 ↔ n = 0xF)) ∧
    ((dec4 n).1.toNat = (n.toNat + 15) % 16 ∧ ((dec4 n).2 = 1 ↔ n = 0x0)) ∧
    (dec4 (inc4 n).1).1 = n ∧ (inc4 (dec4 n).1).1 = n

/-- R112, R113, R114 (the composition of the two Nybble units is the spec's derivation, D29): the chained 8-bit units
compute plus and minus one modulo 256, and undo each other. -/
def Obligations.ByteUnitsWrap : Prop :=
  ∀ b : Byte, (inc8 b).toNat = (b.toNat + 1) % 256 ∧ (dec8 b).toNat = (b.toNat + 255) % 256 ∧
    inc8 (dec8 b) = b ∧ dec8 (inc8 b) = b

/-- R114 (derived there): any number of increments adds that number modulo 256, so 256 of them give the value back. -/
def Obligations.RepeatedIncrementAdds : Prop :=
  ∀ (n : Nat) (b : Byte), (inc8^[n] b).toNat = (b.toNat + n) % 256 ∧ inc8^[256] b = b

/-! ## Encoding and the assembler (30_encoding.md) -/

/-- R71, R75, R77 (decisions D1, D2): words written out from the opcode table decode to their tags, and the seven spare
words to nothing. -/
def Obligations.OpcodeWordsDecode : Prop :=
  decode 0b0000 = .instr .incrementPointer ∧ decode 0b0001 = .instr .decrementPointer ∧
  decode 0b0010 = .instr .incrementValue ∧ decode 0b0011 = .instr .decrementValue ∧
  decode 0b0100 = .instr .outputValue ∧ decode 0b0101 = .instr .inputValue ∧
  decode 0b0110 = .instr .jumpForward ∧ decode 0b0111 = .instr .jumpBackward ∧
  decode 0b1000 = .instr .noOp ∧ decode 0b1001 = .invalid ∧ decode 0b1010 = .invalid ∧ decode 0b1011 = .invalid ∧
  decode 0b1100 = .invalid ∧ decode 0b1101 = .invalid ∧ decode 0b1110 = .invalid ∧ decode 0b1111 = .invalid

/-- R71, R77 (decisions D1, D2): decoding an encoded instruction gives it back, a word that decodes is the encoding of
what it decodes to, and the words that decode are those below `0x9`. -/
def Obligations.DecodeEncodeAgree : Prop :=
  (∀ i : Instr, decode (encode i) = .instr i) ∧
  (∀ (w : OpWord) (i : Instr), decode w = .instr i → encode i = w) ∧
  (∀ w : OpWord, (∃ i, decode w = .instr i) ↔ OpWord.wf w = true)

/-- R79, R81 (decision D3; what `<`, `.` and `,` spell is also log 17): the eight characters and their tags, one by one,
each way; NoOp has none, and no other character has a tag. -/
def Obligations.CharactersAndTagsPair : Prop :=
  (Instr.ofChar '>' = some .incrementPointer ∧ Instr.ofChar '<' = some .decrementPointer ∧
    Instr.ofChar '+' = some .incrementValue ∧ Instr.ofChar '-' = some .decrementValue ∧
    Instr.ofChar '.' = some .outputValue ∧ Instr.ofChar ',' = some .inputValue ∧
    Instr.ofChar '[' = some .jumpForward ∧ Instr.ofChar ']' = some .jumpBackward) ∧
  (∀ c : Char, c ∉ ['>', '<', '+', '-', '.', ',', '[', ']'] → Instr.ofChar c = none) ∧
  (∀ (i : Instr) (c : Char), i.toChar = some c ↔ Instr.ofChar c = some i) ∧
  (∀ i : Instr, i.toChar = none ↔ i = .noOp)

/-- R80, R82: a comment character gives no instruction wherever it stands, each command character gives exactly one, in
the order of the text, and no run of characters is merged. -/
def Obligations.CommentsGiveNoInstruction : Prop :=
  (∀ (xs ys : List Char) (c : Char), Instr.ofChar c = none → assemble (xs ++ c :: ys) = assemble (xs ++ ys)) ∧
  (∀ (xs ys : List Char) (c : Char) (i : Instr), Instr.ofChar c = some i →
    assemble (xs ++ c :: ys) = assemble xs ++ i :: assemble ys) ∧
  (∀ xs : List Char, (assemble xs).length = xs.countP fun c => (Instr.ofChar c).isSome)

/-! ## Program construction (41_program_jump_table.md) -/

/-- R131 to R133: construction on tags succeeds for exactly the programs whose brackets balance, counted by depth. -/
def Obligations.ConstructionAcceptsBalanced : Prop :=
  ∀ is : List Instr, (∃ P, buildProgram is = .ok P) ↔ balanced is = true

/-- R29, R136: the jump table of a constructed Program. It is defined exactly at the jumps; a `[` points at a later `]`
with balanced instructions in between, a `]` at an earlier `[`, and each at the other. -/
def Obligations.JumpTablePairsBrackets : Prop :=
  ∀ (is : List Instr) (P : Program), buildProgram is = .ok P →
    P.imem = is ∧
    (∀ p, (∃ q, P.target p = some q) ↔ (is[p]? = some .jumpForward ∨ is[p]? = some .jumpBackward)) ∧
    (∀ i j, is[i]? = some .jumpForward → P.target i = some j →
      is[j]? = some .jumpBackward ∧ i < j ∧ balanced ((is.drop (i + 1)).take (j - i - 1)) = true) ∧
    (∀ j i, is[j]? = some .jumpBackward → P.target j = some i → is[i]? = some .jumpForward ∧ i < j) ∧
    (∀ p q, P.target p = some q → P.target q = some p)

/-- R132 (that the scan stops at the first one is decision D16): UnmatchedClose is reported at exactly the first `]` that
closes nothing, the one before which the brackets balance. -/
def Obligations.UnmatchedCloseIsTheFirst : Prop :=
  ∀ (is : List Instr) (k : Nat), buildProgram is = .error (.malformedProgram .closing k) ↔
    (is[k]? = some .jumpBackward ∧ balanced (is.take k) = true)

/-- R133, R134 (the index reported is decision D15): UnmatchedOpen is reported at exactly the outermost `[` never
closed: the brackets balance before it, and nothing after it closes it. -/
def Obligations.UnmatchedOpenIsTheOutermost : Prop :=
  ∀ (is : List Instr) (k : Nat), buildProgram is = .error (.malformedProgram .opening k) ↔
    (is[k]? = some .jumpForward ∧ balanced (is.take k) = true ∧
      ∀ n, balanced ((is.drop (k + 1)).take n) = true → (is.drop (k + 1))[n]? ≠ some .jumpBackward)

/-- R227, R231 (decisions D2, D16): InvalidOpcode is reported at exactly the first word that spells no instruction,
whatever the brackets. -/
def Obligations.InvalidOpcodeIsTheFirstAndWins : Prop :=
  ∀ (ws : List OpWord) (k : Nat), construct ws = .error (.invalidOpcode k) ↔
    ((∃ w, ws[k]? = some w ∧ decode w = .invalid) ∧ ∀ j < k, ∃ w, ws[j]? = some w ∧ OpWord.wf w = true)

/-- R71, R131 (decision D1): the words of any balanced instruction sequence construct, to a Program with exactly those
instructions in that order; no word is dropped, fused or reordered (R5, R82). -/
def Obligations.EncodedProgramsConstruct : Prop :=
  ∀ is : List Instr, balanced is = true →
    ∃ P, construct (is.map encode) = .ok P ∧ P.imem = is ∧ P.plen = is.length ∧ P.wf

/-! ## LOAD, reset and the host's commands -/

/-- R36, R250 at the default size (`pc`, the empty Program and `io_wait` are the spec's decisions D10, D11). -/
def Obligations.ResetValues : Prop :=
  State.reset.params.tapeLen = 30000 ∧ (∀ a, State.reset.memRead a = 0x00) ∧ State.reset.dp = 0 ∧
  State.reset.pc = 0 ∧ State.reset.program.imem = [] ∧ State.reset.plen = 0 ∧ (∀ p, State.reset.program.target p = none) ∧
  State.reset.ioWait = none ∧ State.reset.halted = true

/-- R141, R37: LOAD replaces `imem`, `plen` and `jt` together, sets `pc` to 0 and leaves the tape and `dp` whatever ran before;
the machine is then Running if the program is not empty and Halted if it is. -/
def Obligations.LoadInstallsProgram : Prop :=
  ∀ (s : State) (ws : List OpWord) (P : Program), s.ioWait = none → s.params.fits ws.length = true →
    construct ws = .ok P →
    s.command (.load ws) = ({ s with program := P, pc := 0 }, .done .ok) ∧
    (∀ a, (s.command (.load ws)).1.memRead a = s.memRead a) ∧
    (0 < P.plen → (s.command (.load ws)).1.running = true) ∧
    (P.plen = 0 → (s.command (.load ws)).1.halted = true)

/-- R135, R222, R227 (decisions D2, D17): a failed construction changes nothing, and its name is the reply. -/
def Obligations.FailedLoadChangesNothing : Prop :=
  ∀ (s : State) (ws : List OpWord), s.ioWait = none → s.params.fits ws.length = true →
    (∀ k, construct ws = .error (.invalidOpcode k) → s.command (.load ws) = (s, .done .invalidOpcode)) ∧
    (∀ u k, construct ws = .error (.malformedProgram u k) → s.command (.load ws) = (s, .done .malformedProgram))

/-- R26, with R36 and decision D10 for what reset installs: the instruction store holds the instructions in the order they were given; no instruction and no transition writes
the Program; of the commands only LOAD and reset replace it, each all of it: with the Program constructed from the words,
or with the empty one. -/
def Obligations.ProgramIsReadOnly : Prop :=
  (∀ (is : List Instr) (P : Program), buildProgram is = .ok P → P.imem = is) ∧
  (∀ (i : Instr) (s t : State), exec i s = .next t → t.program = s.program) ∧
  (∀ s t : State, step s = .next t → t.program = s.program) ∧
  (∀ s : State, (s.command .step).1.program = s.program) ∧
  (∀ s : State, (s.command .reset).1.program = Program.empty) ∧
  (∀ (s : State) (ws : List OpWord), (s.command (.load ws)).1.program = s.program ∨
    construct ws = .ok (s.command (.load ws)).1.program)

/-- R142, R156, R258 (decision D13): while suspended, LOAD and STEP are not taken; the state is as before. -/
def Obligations.BusyMachineTakesNoCommand : Prop :=
  ∀ s : State, s.ioWait ≠ none → s.busy = true ∧ s.command .step = (s, .notTaken) ∧
    ∀ ws, s.command (.load ws) = (s, .notTaken)

/-- R199, R251 (decisions D10, D11, D13): reset is taken in any state, also while suspended; every piece of state has its
reset value at the same tape length, and of a pending transfer nothing happens: no sample is taken, no event recorded. The
reply is the model's choice (log 19), and that its own collaborator fields stay is log 13. -/
def Obligations.ResetTakenAtAnyTime : Prop :=
  ∀ s : State, (s.command .reset).2 = .done .ok ∧
    (∀ a, (s.command .reset).1.memRead a = 0x00) ∧ (s.command .reset).1.dp = 0 ∧ (s.command .reset).1.pc = 0 ∧
    (s.command .reset).1.program = Program.empty ∧ (s.command .reset).1.plen = 0 ∧
    (s.command .reset).1.ioWait = none ∧
    (s.command .reset).1.params = s.params ∧ (s.command .reset).1.env = s.env

/-! ## The sequencer (42_sequencer.md) -/

/-- R137, R151: `get_instruction` is the instruction at an index below `plen` and "no instruction" at or past the end; the
fetch makes NoOp of the latter. -/
def Obligations.FetchIsTotal : Prop :=
  ∀ (P : Program) (p : Nat),
    (p < P.plen → ∃ i, P.imem[p]? = some i ∧ P.getInstruction p = some i ∧ P.fetch p = i) ∧
    (P.plen ≤ p → P.getInstruction p = none ∧ P.fetch p = .noOp)

/-- R152, R155: a step of a machine that is not suspended and not Halted is the effect of the instruction at `pc`, and
nothing is added around it: the instruction itself sets `pc`. -/
def Obligations.StepRunsFetchedInstruction : Prop :=
  ∀ (s : State) (i : Instr), s.ioWait = none → s.program.imem[s.pc]? = some i → step s = exec i s

/-- A step runs the decoded instruction: where the loaded Program was constructed from words, a step is the effect of
what the word at `pc` decodes to (R131 step 1, R152). -/
def Obligations.StepRunsDecodedWord : Prop :=
  ∀ (s : State) (ws : List OpWord) (w : OpWord) (i : Instr), s.ioWait = none → construct ws = .ok s.program →
    ws[s.pc]? = some w → decode w = .instr i → step s = exec i s

/-- R153 (decision D5): any number of steps in Halted changes nothing. -/
def Obligations.HaltedStepsChangeNothing : Prop :=
  ∀ (s : State) (n : Nat), s.ioWait = none → s.pc = s.plen →
    run n s = .next s ∧ s.command .step = (s, .done .ok)

/-- R150: Running and Halted are decided by `pc` and `plen` alone and are the two run states of every state a run can be
in; no step leaves Halted, and a machine whose step faults is still Running. -/
def Obligations.RunStates : Prop :=
  ∀ s : State, s.Inv →
    (s.running = true ↔ s.pc < s.plen) ∧ (s.halted = true ↔ s.pc = s.plen) ∧
    (s.running = true ↔ s.halted = false) ∧
    (s.halted = true → ∀ t, step s = .next t → t.halted = true) ∧
    (∀ f, step s = .fault f → s.running = true)

/-- R154: after an instruction that completes without fault and is not a taken jump, `pc` is one more, at most `plen`;
an I/O instruction whose transfer has not completed has not advanced. -/
def Obligations.DefaultAdvance : Prop :=
  ∀ (i : Instr) (s t : State), s.ioWait = none → s.pc < s.plen → exec i s = .next t →
    ¬ (i = .jumpForward ∧ s.cellIsZero = true) → ¬ (i = .jumpBackward ∧ s.cellIsZero = false) →
    (t.ioWait = none → t.pc = s.pc + 1 ∧ t.pc ≤ t.plen ∧ (t.halted = true ↔ s.pc + 1 = s.plen)) ∧
    (t.ioWait ≠ none → t.pc = s.pc ∧ (i = .outputValue ∨ i = .inputValue))

/-- R225, R233 (what R225 derives from R224, decision D7): a STEP that faulted leaves the state, so every further STEP
faults again with the same state. -/
def Obligations.FaultRepeats : Prop :=
  ∀ (s : State) (n : Nat), step s = .fault .pointerOutOfBounds →
    (fun x : State => (x.command .step).1)^[n] s = s ∧ s.command .step = (s, .done .pointerOutOfBounds)

/-- R161: the end of a run, a fault and a suspension are three different conditions. -/
def Obligations.EndFaultAndSuspensionAreDistinct : Prop :=
  ∀ s : State, s.Inv → ¬ (s.Ended ∧ s.AtFault) ∧ ¬ (s.Ended ∧ s.Suspended) ∧ ¬ (s.AtFault ∧ s.Suspended) ∧
    (s.AtFault → s.running = true) ∧ (s.Suspended → s.running = true) ∧
    (s.Ended → run 1 s = .next s)

/-! ## The data-pointer instructions (43_pointer.md) -/

/-- R170, whole: its word and character as the rule lists them, its effect with the frame, and its fault, which leaves the
state. -/
def Obligations.IncrementPointerEffect : Prop :=
  decode 0b0000 = .instr .incrementPointer ∧ Instr.ofChar '>' = some .incrementPointer ∧
  (∀ s : State, s.dp + 1 < s.params.tapeLen →
    exec .incrementPointer s = .next { s with dp := s.dp + 1, pc := s.pc + 1 }) ∧
  (∀ s : State, s.params.tapeLen ≤ s.dp + 1 → exec .incrementPointer s = .fault .pointerOutOfBounds) ∧
  (∀ s : State, s.params.tapeLen ≤ s.dp + 1 → s.ioWait = none → s.program.imem[s.pc]? = some .incrementPointer →
    s.command .step = (s, .done .pointerOutOfBounds))

/-- R171, with its word and character as it lists them (what `<` spells is decision D3 and general knowledge, log 17; the
numbering is decision D1): its effect with the frame, and its fault, which leaves the state. -/
def Obligations.DecrementPointerEffect : Prop :=
  decode 0b0001 = .instr .decrementPointer ∧ Instr.ofChar '<' = some .decrementPointer ∧
  (∀ s : State, s.dp ≠ 0 → exec .decrementPointer s = .next { s with dp := s.dp - 1, pc := s.pc + 1 }) ∧
  (∀ s : State, s.dp = 0 → exec .decrementPointer s = .fault .pointerOutOfBounds) ∧
  (∀ s : State, s.dp = 0 → s.ioWait = none → s.program.imem[s.pc]? = some .decrementPointer →
    s.command .step = (s, .done .pointerOutOfBounds))

/-- R223: exactly when PointerOutOfBounds is raised, that no other instruction raises it, and that the host receives its
name and finds the faulting instruction and the pointer unchanged. -/
def Obligations.PointerFaultConditions : Prop :=
  (∀ (i : Instr) (s : State), s.dp < s.params.tapeLen →
    (exec i s = .fault .pointerOutOfBounds ↔
      (i = .incrementPointer ∧ s.dp = s.params.tapeLen - 1) ∨ (i = .decrementPointer ∧ s.dp = 0))) ∧
  ∀ s : State, step s = .fault .pointerOutOfBounds → s.command .step = (s, .done .pointerOutOfBounds)

/-- R23: a step that would take `dp` to -1 or to `TAPE_LEN` raises PointerOutOfBounds and leaves `dp`; every step keeps
`dp` in range, and moves it by one at most, never around an end. -/
def Obligations.PointerNeverLeavesRange : Prop :=
  (∀ s t : State, s.dp < s.params.tapeLen → step s = .next t →
    t.dp < t.params.tapeLen ∧ t.params = s.params ∧ (t.dp = s.dp ∨ t.dp = s.dp + 1 ∨ t.dp + 1 = s.dp)) ∧
  (∀ s : State, s.ioWait = none →
    (s.program.imem[s.pc]? = some .incrementPointer ∧ s.dp + 1 = s.params.tapeLen ∨
     s.program.imem[s.pc]? = some .decrementPointer ∧ s.dp = 0) →
    step s = .fault .pointerOutOfBounds ∧ (s.command .step).1.dp = s.dp)

/-! ## The cell-value instructions (44_cell_value.md) -/

/-- R180, whole: its word and character as the rule lists them, the cell plus one modulo 256 through the 8-bit unit, and
every other cell and everything else unchanged; 256 executions give back the whole tape, with `pc` 256 more. -/
def Obligations.IncrementValueEffect : Prop :=
  decode 0b0010 = .instr .incrementValue ∧ Instr.ofChar '+' = some .incrementValue ∧
  ∀ s : State, s.dp < s.params.tapeLen → s.tape.wf →
    (∃ m : Memory, exec .incrementValue s = .next { s with tape := m, pc := s.pc + 1 } ∧ m.wf ∧
      m.read s.dp = inc8 (s.memRead s.dp) ∧ (m.read s.dp).toNat = ((s.memRead s.dp).toNat + 1) % 256 ∧
      ∀ a, a ≠ s.dp → m.read a = s.memRead a) ∧
    execTimes 256 .incrementValue s = .next { s with pc := s.pc + 256 }

/-- R181, whole: its word and character as the rule lists them, the cell minus one modulo 256 through the 8-bit unit, and
every other cell and everything else unchanged; executed after IncrementValue it gives back the whole tape, and the
reverse. -/
def Obligations.DecrementValueEffect : Prop :=
  decode 0b0011 = .instr .decrementValue ∧ Instr.ofChar '-' = some .decrementValue ∧
  ∀ s : State, s.dp < s.params.tapeLen → s.tape.wf →
    (∃ m : Memory, exec .decrementValue s = .next { s with tape := m, pc := s.pc + 1 } ∧ m.wf ∧
      m.read s.dp = dec8 (s.memRead s.dp) ∧ (m.read s.dp).toNat = ((s.memRead s.dp).toNat + 255) % 256 ∧
      ∀ a, a ≠ s.dp → m.read a = s.memRead a) ∧
    (∃ t, exec .incrementValue s = .next t ∧ exec .decrementValue t = .next { s with pc := s.pc + 2 }) ∧
    (∃ t, exec .decrementValue s = .next t ∧ exec .incrementValue t = .next { s with pc := s.pc + 2 })

/-! ## The I/O instructions (45_io.md) -/

/-- R190, R192 (the handshake is the spec's decision D12, D13; that the byte is not translated is its derivation): with
the collaborator ready, the current cell is sent, once, and `pc` advances; nothing else of the machine changes. The
samples that follow, and the counter, are the model's own (log 3); that it completes at the sample of its dispatch is R192,
and that there is one sample then is log 5. -/
def Obligations.OutputValueCompletes : Prop :=
  ∀ s : State, s.dp < s.params.tapeLen → s.ioWait = none → s.env.outReadyNow = true →
    exec .outputValue s = .next { s with
      pc := s.pc + 1
      env := { s.env with
        outReady := s.env.outReady.tail
        outSamples := s.env.outSamples + 1
        events := s.env.events ++ [.out (s.memRead s.dp)] } }

/-- R193, R195 (decisions D9, D12, D13; completing at the sample of its dispatch is log 5, the samples are log 3): a byte
answered is stored in the current cell, all 8 bits, no other cell changes, `pc` advances, and there is one event. -/
def Obligations.InputValueStoresByte : Prop :=
  ∀ s : State, s.dp < s.params.tapeLen → s.tape.wf → s.ioWait = none → s.env.inPinsNow.valid = true →
    s.env.inPinsNow.eof = false →
    ∃ m : Memory, exec .inputValue s = .next { s with
        tape := m
        pc := s.pc + 1
        env := { s.env with
          inPins := s.env.inPins.tail
          inSamples := s.env.inSamples + 1
          events := s.env.events ++ [.inp (some s.env.inPinsNow.data)] } } ∧
      m.read s.dp = s.env.inPinsNow.data ∧ ∀ a, a ≠ s.dp → m.read a = s.memRead a

/-- R9, R193, R195, R226 (decision D9; the wires `in_valid` and `in_eof` are decisions D12 and D13, completing at the sample
of its dispatch is log 5, the samples are log 3): at end of input the cell is left unchanged, `in_data` is ignored, the instruction
completes and `pc` advances; it is no fault. -/
def Obligations.InputValueAtEndOfInput : Prop :=
  ∀ s : State, s.dp < s.params.tapeLen → s.ioWait = none → s.env.inPinsNow.valid = true →
    s.env.inPinsNow.eof = true →
    exec .inputValue s = .next { s with
      pc := s.pc + 1
      env := { s.env with
        inPins := s.env.inPins.tail
        inSamples := s.env.inSamples + 1
        events := s.env.events ++ [.inp none] } }

/-- R33, R191, R194 (decisions D12, D13; one sample at the dispatch is log 5; that `out_data` has no value while `out_valid`
is 0 is the model's choice, log 21): while the collaborator does not complete the transfer, the I/O instruction
leaves the machine suspended on its channel, with everything else as before it; the output data is the cell. -/
def Obligations.IoInstructionsSuspend : Prop :=
  ∀ s : State, s.dp < s.params.tapeLen →
    (s.env.outReadyNow = false → ∃ t, exec .outputValue s = .next t ∧
      t = { s with ioWait := some .out, env := t.env } ∧ t.env.events = s.env.events ∧
      t.outValid = true ∧ t.outData = some (s.memRead s.dp) ∧ t.inReq = false ∧ t.busy = true) ∧
    (s.env.inPinsNow.valid = false → ∃ t, exec .inputValue s = .next t ∧
      t = { s with ioWait := some .inp, env := t.env } ∧ t.env.events = s.env.events ∧
      t.inReq = true ∧ t.outValid = false ∧ t.outData = none ∧ t.busy = true)

/-- R198 for OutputValue (derived there): however long the collaborator lets the machine wait, suspend and resume equal
one blocking call: one `write_byte` of the cell, then `pc + 1`, and until then the state is the one before, but for
`io_wait`. The count of transitions, one for each sample, is the model's (log 5), not the hardware's; the list of coming
samples is the model's own (log 3). -/
def Obligations.SuspendedOutputEqualsOneCall : Prop :=
  ∀ (s : State) (k : Nat) (rest : List Bool), s.ioWait = none → s.program.imem[s.pc]? = some .outputValue →
    s.dp < s.params.tapeLen → s.env.outReady = List.replicate k false ++ true :: rest →
    run (k + 1) s = .next { s with
      pc := s.pc + 1
      env := { s.env with
        outReady := rest
        outSamples := s.env.outSamples + (k + 1)
        events := s.env.events ++ [.out (s.memRead s.dp)] } } ∧
    ∀ j, 1 ≤ j → j ≤ k → ∃ u, run j s = .next u ∧ u = { s with ioWait := some .out, env := u.env } ∧
      u.env.events = s.env.events

/-- R198 for InputValue (derived there): however long the answer takes, and whatever the other wires show meanwhile,
suspend and resume equal one blocking call whose answer is the first valid one. The count of transitions, one for each
sample, is the model's (log 5), not the hardware's; the list of coming samples is the model's own (log 3). -/
def Obligations.SuspendedInputEqualsOneCall : Prop :=
  ∀ (s : State) (waits : List InPins) (p : InPins) (rest : List InPins), s.ioWait = none →
    s.program.imem[s.pc]? = some .inputValue → s.dp < s.params.tapeLen →
    (∀ w ∈ waits, w.valid = false) → p.valid = true → s.env.inPins = waits ++ p :: rest →
    run (waits.length + 1) s = .next { s with
      tape := if p.eof then s.tape else s.tape.write s.dp p.data
      pc := s.pc + 1
      env := { s.env with
        inPins := rest
        inSamples := s.env.inSamples + (waits.length + 1)
        events := s.env.events ++ [.inp (if p.eof then none else some p.data)] } } ∧
    ∀ j, 1 ≤ j → j ≤ waits.length → ∃ u, run j s = .next u ∧
      u = { s with ioWait := some .inp, env := u.env } ∧ u.env.events = s.env.events

/-- R199: there is no timeout. As long as the collaborator does not complete the transfer the machine stays suspended in
it, with the same state and no event. One transition for each sample is the model's (log 5), and the list of coming
samples is its own (log 3); the statement is for every number of them. -/
def Obligations.UnansweredTransferWaits : Prop :=
  ∀ (s : State) (n : Nat), s.dp < s.params.tapeLen →
    (s.ioWait = some .out → (∃ rest, s.env.outReady = List.replicate n false ++ rest) →
      ∃ u, run n s = .next u ∧ u = { s with env := u.env } ∧ u.env.events = s.env.events ∧ u.busy = true) ∧
    (s.ioWait = some .inp → (∃ ws rest, ws.length = n ∧ (∀ w ∈ ws, w.valid = false) ∧ s.env.inPins = ws ++ rest) →
      ∃ u, run n s = .next u ∧ u = { s with env := u.env } ∧ u.env.events = s.env.events ∧ u.busy = true)

/-- R156, R192, R195 (decisions D12, D13; when a channel is sampled is log 5): a STEP that suspends delivers its outcome when
the transfer completes, and it is always `Ok`. At each later moment the host receives `Ok` (code 0) if the transfer
completes at it, with `pc` advanced, and nothing but "still suspended" if it does not; with nothing suspended there is
nothing to receive. A result port has no value before the command completes: the model's choice, log 21. A STEP command answers "suspended" exactly when it leaves the machine suspended. -/
def Obligations.SuspendedStepDeliversOk : Prop :=
  (∀ s : State, s.dp < s.params.tapeLen →
    (s.ioWait = some .out ∧ s.env.outReadyNow = true ∨ s.ioWait = some .inp ∧ s.env.inPinsNow.valid = true →
      ∃ t, step s = .next t ∧ s.resumeNow = (t, some (.done .ok)) ∧ t.ioWait = none ∧ t.pc = s.pc + 1) ∧
    (s.ioWait = some .out ∧ s.env.outReadyNow = false ∨ s.ioWait = some .inp ∧ s.env.inPinsNow.valid = false →
      ∃ t, step s = .next t ∧ s.resumeNow = (t, some .suspended) ∧ t = { s with env := t.env } ∧
        t.env.events = s.env.events)) ∧
  (∀ s : State, s.ioWait = none → s.resumeNow = (s, none)) ∧
  (∀ s t : State, s.ioWait = none → step s = .next t →
    s.command .step = (t, if t.ioWait = none then .done .ok else .suspended)) ∧
  Reply.result (.done .ok) = some 0 ∧ Reply.result .suspended = none

/-- R197 (suspension and the completing moment are decisions D12 and D13, one sample for each transition is log 5, the record
of events is the model's own, log 11): an I/O instruction makes exactly one transaction, its own, at the moment it
completes, and none while it is suspended; no other instruction makes any or suspends. Of transitions the same: one that
completes a suspended transfer makes exactly its one transaction, one that leaves the machine suspended none, and any at
most one. -/
def Obligations.OneTransactionPerIoInstruction : Prop :=
  (∀ (i : Instr) (s t : State), exec i s = .next t →
    (i = .outputValue → t.ioWait = none → t.env.events = s.env.events ++ [.out (s.memRead s.dp)]) ∧
    (i = .inputValue → t.ioWait = none → ∃ r, t.env.events = s.env.events ++ [.inp r]) ∧
    (i = .outputValue ∨ i = .inputValue → t.ioWait ≠ none → t.env.events = s.env.events) ∧
    (i ≠ .outputValue → i ≠ .inputValue → t.env = s.env ∧ t.ioWait = s.ioWait)) ∧
  ∀ s t : State, step s = .next t →
    (s.ioWait = some .out → t.ioWait = none → t.env.events = s.env.events ++ [.out (s.memRead s.dp)]) ∧
    (s.ioWait = some .inp → t.ioWait = none → ∃ r, t.env.events = s.env.events ++ [.inp r]) ∧
    (t.ioWait ≠ none → t.env.events = s.env.events) ∧
    (t.env.events = s.env.events ∨ ∃ x, t.env.events = s.env.events ++ [x])

/-! ## Control transfer and NoOp (46_jumps_noop.md) -/

/-- R210 (where a taken jump lands is decision D4, conflict C1): on a zero cell `pc` goes past the matching `]`, on a
nonzero one to the next instruction; nothing else changes. -/
def Obligations.JumpForwardEffect : Prop :=
  ∀ s : State, s.dp < s.params.tapeLen →
    (∀ q, s.memRead s.dp = 0 → s.program.target s.pc = some q → exec .jumpForward s = .next { s with pc := q + 1 }) ∧
    (s.memRead s.dp ≠ 0 → exec .jumpForward s = .next { s with pc := s.pc + 1 })

/-- R211 (where a taken jump lands is decision D4, conflict C1): on a nonzero cell `pc` goes to the matching `[` itself, on
a zero one to the next instruction; nothing else changes. -/
def Obligations.JumpBackwardEffect : Prop :=
  ∀ s : State, s.dp < s.params.tapeLen →
    (∀ q, s.memRead s.dp ≠ 0 → s.program.target s.pc = some q → exec .jumpBackward s = .next { s with pc := q }) ∧
    (s.memRead s.dp = 0 → exec .jumpBackward s = .next { s with pc := s.pc + 1 })

/-- R212 (that it advances `pc` is decision D27): NoOp changes nothing but `pc`. -/
def Obligations.NoOpEffect : Prop :=
  ∀ s : State, exec .noOp s = .next { s with pc := s.pc + 1 }

/-- R211, R213: after a taken JumpBackward the JumpForward is fetched next, finds the cell still nonzero and enters the
body: two steps, and only `pc` changes. -/
def Obligations.LoopGoesRoundAgain : Prop :=
  ∀ s : State, s.Inv → s.ioWait = none → s.program.imem[s.pc]? = some .jumpBackward → s.memRead s.dp ≠ 0 →
    ∃ q, s.program.target s.pc = some q ∧ q < s.pc ∧ s.program.imem[q]? = some .jumpForward ∧
      run 1 s = .next { s with pc := q } ∧ run 2 s = .next { s with pc := q + 1 }

/-! ## Frames over the families, and what a step can observe -/

/-- Frame of the instructions that store nothing and make no transfer (R55): every byte of memory, the Program, the
parameters, the suspension and the collaborator's side are unchanged, and `dp` too but for the pointer instructions. -/
def Obligations.RegisterInstructionsFrame : Prop :=
  ∀ (i : Instr) (s t : State),
    i ∈ [Instr.incrementPointer, .decrementPointer, .jumpForward, .jumpBackward, .noOp] → exec i s = .next t →
    (∀ a, t.memRead a = s.memRead a) ∧ t.program = s.program ∧ t.params = s.params ∧ t.ioWait = s.ioWait ∧
    t.env = s.env ∧ (i ≠ .incrementPointer → i ≠ .decrementPointer → t.dp = s.dp)

/-- Frame of the storing and I/O instructions (R55, R62): the only byte of memory that can change is the one at `dp`,
OutputValue and a suspension change none, and `dp`, the Program and the parameters are unchanged. -/
def Obligations.StoringAndIoFrame : Prop :=
  ∀ (i : Instr) (s t : State), i ∈ [Instr.incrementValue, .decrementValue, .outputValue, .inputValue] →
    exec i s = .next t →
    (∀ a, a ≠ s.dp → t.memRead a = s.memRead a) ∧ t.dp = s.dp ∧ t.program = s.program ∧ t.params = s.params ∧
    (i = .outputValue ∨ (i = .inputValue ∧ t.ioWait ≠ none) → ∀ a, t.memRead a = s.memRead a) ∧
    (i = .incrementValue ∨ i = .decrementValue → t.ioWait = s.ioWait ∧ t.env = s.env)

/-- R30, R51: an instruction sees of the tape only the current cell. On any other tape with the same cell at `dp` it does
the same, and leaves the other cells of that tape as they are. -/
def Obligations.OnlyCurrentCellIsSeen : Prop :=
  ∀ (i : Instr) (s t : State) (m : Memory), m.read s.dp = s.tape.read s.dp → exec i s = .next t →
    ∃ t', exec i { s with tape := m } = .next t' ∧ t'.pc = t.pc ∧ t'.dp = t.dp ∧ t'.ioWait = t.ioWait ∧
      t'.env = t.env ∧ (∀ a, a ≠ s.dp → t'.memRead a = m.read a) ∧
      (m.wf → s.tape.wf → t'.memRead s.dp = t.memRead s.dp)

/-- R39: the machine keeps no history of output. Its step is the same whatever events are recorded, and adds to any
record the same events. -/
def Obligations.RecordedEventsAreNotRead : Prop :=
  ∀ (s t : State) (ev : List IoEvent), step s = .next t →
    ∃ new, t.env.events = s.env.events ++ new ∧
      step { s with env := { s.env with events := ev } } =
        .next { t with env := { t.env with events := ev ++ new } }

/-! ## The invariant, and safety -/

/-- The invariant holds of every machine just constructed (R36), and of the reset state. -/
def Obligations.InvariantAtReset : Prop :=
  State.reset.Inv ∧ ∀ (p : Params) (e : Env) (s : State), constructMachine p e = .ok s → s.Inv

/-- Every transition keeps the invariant: `dp` and `pc` in range (R22 to R25), the tape's length and form (R21), the jump
table complete (R28, R255), and a suspended machine at its I/O instruction (R33). -/
def Obligations.StepKeepsInvariant : Prop :=
  ∀ s t : State, s.Inv → step s = .next t → t.Inv

/-- Whatever the host commands and whenever, and however the collaborator behaves, every state reached from one that
meets the invariant meets it (R22, R24, R29, R255). -/
def Obligations.ReachableStatesKeepInvariant : Prop :=
  ∀ s t : State, s.Inv → Reaches s t → t.Inv

/-- R228 (derived there): nothing else faults. From every state a run can be in, a step goes on, or it is a pointer
instruction at the end of the tape that faults; it is never refused. -/
def Obligations.OnlyPointerMovesStop : Prop :=
  ∀ s : State, s.Inv → (∃ t, step s = .next t) ∨
    (step s = .fault .pointerOutOfBounds ∧ s.ioWait = none ∧
      ((s.program.imem[s.pc]? = some .incrementPointer ∧ s.dp + 1 = s.params.tapeLen) ∨
       (s.program.imem[s.pc]? = some .decrementPointer ∧ s.dp = 0)))

/-- R22, R24 (decision D20): the hardware widths `DP_W` and `PC_W` hold every value the two counters take. -/
def Obligations.CounterWidthsSuffice : Prop :=
  ∀ s : State, s.Inv → s.dp < 2 ^ s.params.dpWidth ∧ ∀ w, s.params.pcWidth = some w → s.pc < 2 ^ w
end

