-- ==== Sys2Proof/Laws/State.lean ====
section
/-! SUPPORT. One lemma per field per update of the state, each true by rfl: a proof reads a field through an update by `simp`
and unfolds no record. -/

namespace Sys2Proof.Machine

@[simp] theorem State.setTape_params (s : State) (m : Memory) : (s.setTape m).params = s.params := rfl
@[simp] theorem State.setTape_tape (s : State) (m : Memory) : (s.setTape m).tape = m := rfl
@[simp] theorem State.setTape_dp (s : State) (m : Memory) : (s.setTape m).dp = s.dp := rfl
@[simp] theorem State.setTape_pc (s : State) (m : Memory) : (s.setTape m).pc = s.pc := rfl
@[simp] theorem State.setTape_program (s : State) (m : Memory) : (s.setTape m).program = s.program := rfl
@[simp] theorem State.setTape_ioWait (s : State) (m : Memory) : (s.setTape m).ioWait = s.ioWait := rfl
@[simp] theorem State.setTape_env (s : State) (m : Memory) : (s.setTape m).env = s.env := rfl

@[simp] theorem State.setDp_params (s : State) (d : Nat) : (s.setDp d).params = s.params := rfl
@[simp] theorem State.setDp_tape (s : State) (d : Nat) : (s.setDp d).tape = s.tape := rfl
@[simp] theorem State.setDp_dp (s : State) (d : Nat) : (s.setDp d).dp = d := rfl
@[simp] theorem State.setDp_pc (s : State) (d : Nat) : (s.setDp d).pc = s.pc := rfl
@[simp] theorem State.setDp_program (s : State) (d : Nat) : (s.setDp d).program = s.program := rfl
@[simp] theorem State.setDp_ioWait (s : State) (d : Nat) : (s.setDp d).ioWait = s.ioWait := rfl
@[simp] theorem State.setDp_env (s : State) (d : Nat) : (s.setDp d).env = s.env := rfl

@[simp] theorem State.setPc_params (s : State) (p : Nat) : (s.setPc p).params = s.params := rfl
@[simp] theorem State.setPc_tape (s : State) (p : Nat) : (s.setPc p).tape = s.tape := rfl
@[simp] theorem State.setPc_dp (s : State) (p : Nat) : (s.setPc p).dp = s.dp := rfl
@[simp] theorem State.setPc_pc (s : State) (p : Nat) : (s.setPc p).pc = p := rfl
@[simp] theorem State.setPc_program (s : State) (p : Nat) : (s.setPc p).program = s.program := rfl
@[simp] theorem State.setPc_ioWait (s : State) (p : Nat) : (s.setPc p).ioWait = s.ioWait := rfl
@[simp] theorem State.setPc_env (s : State) (p : Nat) : (s.setPc p).env = s.env := rfl

@[simp] theorem State.setProgram_params (s : State) (P : Program) : (s.setProgram P).params = s.params := rfl
@[simp] theorem State.setProgram_tape (s : State) (P : Program) : (s.setProgram P).tape = s.tape := rfl
@[simp] theorem State.setProgram_dp (s : State) (P : Program) : (s.setProgram P).dp = s.dp := rfl
@[simp] theorem State.setProgram_pc (s : State) (P : Program) : (s.setProgram P).pc = s.pc := rfl
@[simp] theorem State.setProgram_program (s : State) (P : Program) : (s.setProgram P).program = P := rfl
@[simp] theorem State.setProgram_ioWait (s : State) (P : Program) : (s.setProgram P).ioWait = s.ioWait := rfl
@[simp] theorem State.setProgram_env (s : State) (P : Program) : (s.setProgram P).env = s.env := rfl

@[simp] theorem State.setIoWait_params (s : State) (w : Option IoWait) : (s.setIoWait w).params = s.params := rfl
@[simp] theorem State.setIoWait_tape (s : State) (w : Option IoWait) : (s.setIoWait w).tape = s.tape := rfl
@[simp] theorem State.setIoWait_dp (s : State) (w : Option IoWait) : (s.setIoWait w).dp = s.dp := rfl
@[simp] theorem State.setIoWait_pc (s : State) (w : Option IoWait) : (s.setIoWait w).pc = s.pc := rfl
@[simp] theorem State.setIoWait_program (s : State) (w : Option IoWait) : (s.setIoWait w).program = s.program := rfl
@[simp] theorem State.setIoWait_ioWait (s : State) (w : Option IoWait) : (s.setIoWait w).ioWait = w := rfl
@[simp] theorem State.setIoWait_env (s : State) (w : Option IoWait) : (s.setIoWait w).env = s.env := rfl

@[simp] theorem State.setEnv_params (s : State) (e : Env) : (s.setEnv e).params = s.params := rfl
@[simp] theorem State.setEnv_tape (s : State) (e : Env) : (s.setEnv e).tape = s.tape := rfl
@[simp] theorem State.setEnv_dp (s : State) (e : Env) : (s.setEnv e).dp = s.dp := rfl
@[simp] theorem State.setEnv_pc (s : State) (e : Env) : (s.setEnv e).pc = s.pc := rfl
@[simp] theorem State.setEnv_program (s : State) (e : Env) : (s.setEnv e).program = s.program := rfl
@[simp] theorem State.setEnv_ioWait (s : State) (e : Env) : (s.setEnv e).ioWait = s.ioWait := rfl
@[simp] theorem State.setEnv_env (s : State) (e : Env) : (s.setEnv e).env = e := rfl

@[simp] theorem State.advance_params (s : State) : s.advance.params = s.params := rfl
@[simp] theorem State.advance_tape (s : State) : s.advance.tape = s.tape := rfl
@[simp] theorem State.advance_dp (s : State) : s.advance.dp = s.dp := rfl
@[simp] theorem State.advance_pc (s : State) : s.advance.pc = s.pc + 1 := rfl
@[simp] theorem State.advance_program (s : State) : s.advance.program = s.program := rfl
@[simp] theorem State.advance_ioWait (s : State) : s.advance.ioWait = s.ioWait := rfl
@[simp] theorem State.advance_env (s : State) : s.advance.env = s.env := rfl

@[simp] theorem State.memWrite_params (s : State) (a : Nat) (v : Byte) : (s.memWrite a v).params = s.params := rfl
@[simp] theorem State.memWrite_tape (s : State) (a : Nat) (v : Byte) : (s.memWrite a v).tape = s.tape.write a v := rfl
@[simp] theorem State.memWrite_dp (s : State) (a : Nat) (v : Byte) : (s.memWrite a v).dp = s.dp := rfl
@[simp] theorem State.memWrite_pc (s : State) (a : Nat) (v : Byte) : (s.memWrite a v).pc = s.pc := rfl
@[simp] theorem State.memWrite_program (s : State) (a : Nat) (v : Byte) : (s.memWrite a v).program = s.program := rfl
@[simp] theorem State.memWrite_ioWait (s : State) (a : Nat) (v : Byte) : (s.memWrite a v).ioWait = s.ioWait := rfl
@[simp] theorem State.memWrite_env (s : State) (a : Nat) (v : Byte) : (s.memWrite a v).env = s.env := rfl

@[simp] theorem State.completeIo_params (s : State) (x : IoEvent) : (s.completeIo x).params = s.params := rfl
@[simp] theorem State.completeIo_tape (s : State) (x : IoEvent) : (s.completeIo x).tape = s.tape := rfl
@[simp] theorem State.completeIo_dp (s : State) (x : IoEvent) : (s.completeIo x).dp = s.dp := rfl
@[simp] theorem State.completeIo_pc (s : State) (x : IoEvent) : (s.completeIo x).pc = s.pc + 1 := rfl
@[simp] theorem State.completeIo_program (s : State) (x : IoEvent) : (s.completeIo x).program = s.program := rfl
@[simp] theorem State.completeIo_ioWait (s : State) (x : IoEvent) : (s.completeIo x).ioWait = none := rfl
@[simp] theorem State.completeIo_env (s : State) (x : IoEvent) : (s.completeIo x).env = s.env.record x := rfl

@[simp] theorem State.install_params (s : State) (P : Program) : (s.install P).params = s.params := rfl
@[simp] theorem State.install_tape (s : State) (P : Program) : (s.install P).tape = s.tape := rfl
@[simp] theorem State.install_dp (s : State) (P : Program) : (s.install P).dp = s.dp := rfl
@[simp] theorem State.install_pc (s : State) (P : Program) : (s.install P).pc = 0 := rfl
@[simp] theorem State.install_program (s : State) (P : Program) : (s.install P).program = P := rfl
@[simp] theorem State.install_ioWait (s : State) (P : Program) : (s.install P).ioWait = s.ioWait := rfl
@[simp] theorem State.install_env (s : State) (P : Program) : (s.install P).env = s.env := rfl

@[simp] theorem State.fresh_params (p : Params) (e : Env) : (State.fresh p e).params = p := rfl
@[simp] theorem State.fresh_tape (p : Params) (e : Env) : (State.fresh p e).tape = [] := rfl
@[simp] theorem State.fresh_dp (p : Params) (e : Env) : (State.fresh p e).dp = 0 := rfl
@[simp] theorem State.fresh_pc (p : Params) (e : Env) : (State.fresh p e).pc = 0 := rfl
@[simp] theorem State.fresh_program (p : Params) (e : Env) : (State.fresh p e).program = Program.empty := rfl
@[simp] theorem State.fresh_ioWait (p : Params) (e : Env) : (State.fresh p e).ioWait = none := rfl
@[simp] theorem State.fresh_env (p : Params) (e : Env) : (State.fresh p e).env = e := rfl

@[simp] theorem State.resetNow_params (s : State) : s.resetNow.params = s.params := rfl
@[simp] theorem State.resetNow_tape (s : State) : s.resetNow.tape = [] := rfl
@[simp] theorem State.resetNow_dp (s : State) : s.resetNow.dp = 0 := rfl
@[simp] theorem State.resetNow_pc (s : State) : s.resetNow.pc = 0 := rfl
@[simp] theorem State.resetNow_program (s : State) : s.resetNow.program = Program.empty := rfl
@[simp] theorem State.resetNow_ioWait (s : State) : s.resetNow.ioWait = none := rfl
@[simp] theorem State.resetNow_env (s : State) : s.resetNow.env = s.env := rfl

/-! ## The collaborator's side -/

@[simp] theorem Env.nextOut_outReady (e : Env) : e.nextOut.outReady = e.outReady.tail := rfl
@[simp] theorem Env.nextOut_inPins (e : Env) : e.nextOut.inPins = e.inPins := rfl
@[simp] theorem Env.nextOut_outSamples (e : Env) : e.nextOut.outSamples = e.outSamples + 1 := rfl
@[simp] theorem Env.nextOut_inSamples (e : Env) : e.nextOut.inSamples = e.inSamples := rfl
@[simp] theorem Env.nextOut_events (e : Env) : e.nextOut.events = e.events := rfl

@[simp] theorem Env.nextIn_outReady (e : Env) : e.nextIn.outReady = e.outReady := rfl
@[simp] theorem Env.nextIn_inPins (e : Env) : e.nextIn.inPins = e.inPins.tail := rfl
@[simp] theorem Env.nextIn_outSamples (e : Env) : e.nextIn.outSamples = e.outSamples := rfl
@[simp] theorem Env.nextIn_inSamples (e : Env) : e.nextIn.inSamples = e.inSamples + 1 := rfl
@[simp] theorem Env.nextIn_events (e : Env) : e.nextIn.events = e.events := rfl

@[simp] theorem Env.record_outReady (e : Env) (x : IoEvent) : (e.record x).outReady = e.outReady := rfl
@[simp] theorem Env.record_inPins (e : Env) (x : IoEvent) : (e.record x).inPins = e.inPins := rfl
@[simp] theorem Env.record_outSamples (e : Env) (x : IoEvent) : (e.record x).outSamples = e.outSamples := rfl
@[simp] theorem Env.record_inSamples (e : Env) (x : IoEvent) : (e.record x).inSamples = e.inSamples := rfl
@[simp] theorem Env.record_events (e : Env) (x : IoEvent) : (e.record x).events = e.events ++ [x] := rfl

/-! ## Views computed from the state -/

@[simp] theorem State.setDp_memRead (s : State) (d a : Nat) : (s.setDp d).memRead a = s.memRead a := rfl
@[simp] theorem State.setPc_memRead (s : State) (p a : Nat) : (s.setPc p).memRead a = s.memRead a := rfl
@[simp] theorem State.advance_memRead (s : State) (a : Nat) : s.advance.memRead a = s.memRead a := rfl
@[simp] theorem State.setEnv_memRead (s : State) (e : Env) (a : Nat) : (s.setEnv e).memRead a = s.memRead a := rfl
@[simp] theorem State.setIoWait_memRead (s : State) (w : Option IoWait) (a : Nat) :
    (s.setIoWait w).memRead a = s.memRead a := rfl
@[simp] theorem State.completeIo_memRead (s : State) (x : IoEvent) (a : Nat) :
    (s.completeIo x).memRead a = s.memRead a := rfl

end Sys2Proof.Machine
end

