-- ==== Sys2Proof/Laws/Memory.lean ====
section
/-! SUPPORT. The laws of the tape's storage: a read after a write, the other cells, and that every operation keeps the canonical
form and the range. -/

namespace Sys2Proof.Machine

@[simp] theorem Memory.read_nil (a : Nat) : Memory.read [] a = Memory.unlisted := rfl

/-- An address below every listed one reads as unlisted. -/
theorem Memory.read_of_lt_all (m : Memory) (a : Nat) (h : ∀ c ∈ m, a < c.1) : m.read a = Memory.unlisted := by
  induction m with
  | nil => rfl
  | cons c m ih =>
    obtain ⟨k, v⟩ := c
    have hk : a < k := h (k, v) (by simp)
    simp only [Memory.read, if_neg (Nat.ne_of_lt hk)]
    exact ih fun c hc => h c (by simp [hc])

/-- The cells a write lists: the written one, and cells listed before. -/
theorem Memory.mem_write {m : Memory} {a : Nat} {v : Byte} {c : Host.Cell} (h : c ∈ m.write a v) :
    c ∈ m ∨ (c = (a, v) ∧ v ≠ Memory.unlisted) := by
  induction m with
  | nil =>
    simp only [Memory.write] at h
    split at h <;> simp_all
  | cons d m ih =>
    obtain ⟨k, w⟩ := d
    simp only [Memory.write] at h
    split at h
    · split at h <;> simp_all
      tauto
    · split at h
      · split at h <;> simp_all
        tauto
      · simp only [List.mem_cons] at h ⊢
        rcases h with h | h
        · exact .inl (.inl h)
        · exact (ih h).imp .inr id

/-- Every write keeps the canonical form. -/
theorem Memory.write_wf {m : Memory} (h : m.wf) (a : Nat) (v : Byte) : (m.write a v).wf := by
  refine ⟨?_, fun c hc => ?_⟩
  · induction m with
    | nil =>
      simp only [Memory.write]
      split <;> simp
    | cons d m ih =>
      obtain ⟨k, w⟩ := d
      obtain ⟨hp, hz⟩ := h
      rw [List.pairwise_cons] at hp
      have hm : Memory.wf m := ⟨hp.2, fun c hc => hz c (by simp [hc])⟩
      simp only [Memory.write]
      split
      · rename_i hlt
        split
        · exact List.pairwise_cons.2 hp
        · refine List.pairwise_cons.2 ⟨fun c hc => ?_, List.pairwise_cons.2 hp⟩
          rcases List.mem_cons.1 hc with rfl | hc
          · exact hlt
          · exact Nat.lt_trans hlt (hp.1 c hc)
      · split
        · rename_i heq
          split
          · exact hp.2
          · exact List.pairwise_cons.2 ⟨heq ▸ hp.1, hp.2⟩
        · refine List.pairwise_cons.2 ⟨fun c hc => ?_, ih hm⟩
          rcases Memory.mem_write hc with hc | ⟨rfl, -⟩
          · exact hp.1 c hc
          · show k < a
            omega
  · rcases Memory.mem_write hc with hc | ⟨rfl, hv⟩
    · exact h.2 c hc
    · exact hv

/-- A read of the written cell gives the value written. -/
theorem Memory.read_write_same {m : Memory} (h : m.wf) (a : Nat) (v : Byte) : (m.write a v).read a = v := by
  induction m with
  | nil =>
    simp only [Memory.write]
    split <;> simp_all [Memory.read]
  | cons d m ih =>
    obtain ⟨k, w⟩ := d
    obtain ⟨hp, hz⟩ := h
    rw [List.pairwise_cons] at hp
    have hm : Memory.wf m := ⟨hp.2, fun c hc => hz c (by simp [hc])⟩
    simp only [Memory.write]
    split
    · rename_i hlt
      split
      · rename_i hv
        rw [hv]
        refine Memory.read_of_lt_all _ _ fun c hc => ?_
        rcases List.mem_cons.1 hc with rfl | hc
        · exact hlt
        · exact Nat.lt_trans hlt (hp.1 c hc)
      · simp [Memory.read]
    · split
      · rename_i heq
        subst heq
        split
        · rename_i hv
          rw [hv]
          exact Memory.read_of_lt_all _ _ hp.1
        · simp [Memory.read]
      · rename_i hne
        simp only [Memory.read, if_neg hne]
        exact ih hm

/-- A write leaves every other cell alone. -/
theorem Memory.read_write_other (m : Memory) {a b : Nat} (hab : b ≠ a) (v : Byte) : (m.write a v).read b = m.read b := by
  induction m with
  | nil =>
    simp only [Memory.write]
    split <;> simp [Memory.read, hab]
  | cons d m ih =>
    obtain ⟨k, w⟩ := d
    simp only [Memory.write]
    split
    · split <;> simp [Memory.read, hab]
    · split
      · rename_i heq
        subst heq
        split <;> simp [Memory.read, hab]
      · simp [Memory.read, ih]

/-- A write of a cell in range lists no cell out of range. -/
theorem Memory.write_inRange {m : Memory} {n a : Nat} (h : ∀ c ∈ m, c.1 < n) (ha : a < n) (v : Byte) :
    ∀ c ∈ m.write a v, c.1 < n := by
  intro c hc
  rcases Memory.mem_write hc with hc | ⟨rfl, -⟩
  · exact h c hc
  · exact ha

/-- Memories in canonical form that read alike everywhere are the same list. -/
theorem Memory.ext {m n : Memory} (hm : m.wf) (hn : n.wf) (h : ∀ a, m.read a = n.read a) : m = n := by
  induction m generalizing n with
  | nil =>
    cases n with
    | nil => rfl
    | cons d n =>
      have hd := h d.1
      simp only [Memory.read, if_true] at hd
      exact absurd hd.symm (hn.2 d (by simp))
  | cons c m ih =>
    obtain ⟨k, v⟩ := c
    cases n with
    | nil =>
      have hc := h k
      simp only [Memory.read, if_true] at hc
      exact absurd hc (hm.2 (k, v) (by simp))
    | cons d n =>
      obtain ⟨l, w⟩ := d
      obtain ⟨hmp, hmz⟩ := hm
      obtain ⟨hnp, hnz⟩ := hn
      rw [List.pairwise_cons] at hmp hnp
      have hv : v ≠ Memory.unlisted := hmz (k, v) (by simp)
      have hw : w ≠ Memory.unlisted := hnz (l, w) (by simp)
      have hkl : k = l := by
        rcases Nat.lt_trichotomy k l with hlt | heq | hlt
        · refine absurd (h k) ?_
          rw [Memory.read_of_lt_all ((l, w) :: n) k fun c hc => by
            rcases List.mem_cons.1 hc with rfl | hc
            · exact hlt
            · exact Nat.lt_trans hlt (hnp.1 c hc)]
          simpa only [Memory.read, if_true] using hv
        · exact heq
        · refine absurd (h l).symm ?_
          rw [Memory.read_of_lt_all ((k, v) :: m) l fun c hc => by
            rcases List.mem_cons.1 hc with rfl | hc
            · exact hlt
            · exact Nat.lt_trans hlt (hmp.1 c hc)]
          simpa only [Memory.read, if_true] using hw
      subst hkl
      have hvw : v = w := by simpa only [Memory.read, if_true] using h k
      subst hvw
      congr 1
      refine ih ⟨hmp.2, fun c hc => hmz c (by simp [hc])⟩ ⟨hnp.2, fun c hc => hnz c (by simp [hc])⟩ fun a => ?_
      by_cases ha : a = k
      · subst ha
        rw [Memory.read_of_lt_all m a hmp.1, Memory.read_of_lt_all n a hnp.1]
      · simpa only [Memory.read, if_neg ha] using h a

/-- The memory after reset has the canonical form. -/
theorem Memory.reset_wf : State.reset.tape.wf := by decide

theorem State.memRead_memWrite_same {s : State} (h : s.tape.wf) (a : Nat) (v : Byte) :
    (s.memWrite a v).memRead a = v := Memory.read_write_same h a v

theorem State.memRead_memWrite_other (s : State) {a b : Nat} (hab : b ≠ a) (v : Byte) :
    (s.memWrite a v).memRead b = s.memRead b := Memory.read_write_other _ hab v

end Sys2Proof.Machine
end

