-- ==== Sys2Proof/Laws/Ops.lean ====
section
/-! SUPPORT. One specification per shared operation, which the lemmas over instructions cite instead of unfolding it. -/

namespace Sys2Proof.Machine

/-! ## Faults and the current cell -/

@[simp] theorem abortStep_ne_next (f : Fault) (s t : State) : abortStep f s ≠ .next t := nofun

@[simp] theorem abortStep_ne_refused (f : Fault) (s : State) (r : Refusal) : abortStep f s ≠ .refused r := nofun

theorem atCell_of_lt {s : State} (h : s.dp < s.params.tapeLen) (work : Byte → Result) :
    atCell s work = work (s.memRead s.dp) := if_pos h

theorem atCell_of_le {s : State} (h : s.params.tapeLen ≤ s.dp) (work : Byte → Result) :
    atCell s work = .fault .cellOutsideTape := if_neg (Nat.not_lt.2 h)

/-- A next state from the current cell: the cell exists, and it is the work's. -/
theorem atCell_next {s t : State} {work : Byte → Result} (h : atCell s work = .next t) :
    s.dp < s.params.tapeLen ∧ work (s.memRead s.dp) = .next t := by
  by_cases hd : s.dp < s.params.tapeLen
  · exact ⟨hd, by rwa [atCell_of_lt hd] at h⟩
  · rw [atCell_of_le (Nat.not_lt.1 hd)] at h
    cases h

theorem updateCell_next {f : Byte → Byte} {s t : State} (h : updateCell f s = .next t) :
    s.dp < s.params.tapeLen ∧ t = (s.memWrite s.dp (f (s.memRead s.dp))).advance := by
  obtain ⟨hd, ht⟩ := atCell_next h
  exact ⟨hd, by cases ht; rfl⟩

theorem atTarget_next {s t : State} {work : Nat → Result} (h : atTarget s work = .next t) :
    ∃ q, s.program.target s.pc = some q ∧ work q = .next t := by
  unfold atTarget at h
  cases hq : s.program.target s.pc with
  | none => rw [hq] at h; cases h
  | some q => exact ⟨q, rfl, by rwa [hq] at h⟩

theorem atTarget_of_some {s : State} {q : Nat} (h : s.program.target s.pc = some q) (work : Nat → Result) :
    atTarget s work = work q := by
  unfold atTarget
  rw [h]

/-! ## The I/O channels -/

theorem InPins.answer_eq_none {p : InPins} : p.answer = none ↔ p.valid = false := by
  rcases p with ⟨⟨⟩, ⟨⟩, d⟩ <;> simp [InPins.answer]

theorem InPins.answer_eof {p : InPins} (hv : p.valid = true) (he : p.eof = true) : p.answer = some none := by
  simp [InPins.answer, hv, he]

theorem InPins.answer_byte {p : InPins} (hv : p.valid = true) (he : p.eof = false) :
    p.answer = some (some p.data) := by
  simp [InPins.answer, hv, he]

theorem State.offerOutput_ready {s : State} (h : s.env.outReadyNow = true) (v : Byte) :
    s.offerOutput v = (s.setEnv s.env.nextOut).completeIo (.out v) := if_pos h

theorem State.offerOutput_waiting {s : State} (h : s.env.outReadyNow = false) (v : Byte) :
    s.offerOutput v = (s.setEnv s.env.nextOut).setIoWait (some .out) :=
  if_neg (by simp [h])

/-- One moment of an output transfer: it completes with its one event, or the machine is suspended and only the sample
is past. -/
theorem outputTransfer_cases {s t : State} (h : outputTransfer s = .next t) :
    s.dp < s.params.tapeLen ∧
    ((s.env.outReadyNow = true ∧ t = (s.setEnv s.env.nextOut).completeIo (.out (s.memRead s.dp))) ∨
     (s.env.outReadyNow = false ∧ t = (s.setEnv s.env.nextOut).setIoWait (some .out))) := by
  obtain ⟨hd, ht⟩ := atCell_next h
  refine ⟨hd, ?_⟩
  cases hr : s.env.outReadyNow with
  | true => exact .inl ⟨rfl, by rw [State.offerOutput_ready hr] at ht; cases ht; rfl⟩
  | false => exact .inr ⟨rfl, by rw [State.offerOutput_waiting hr] at ht; cases ht; rfl⟩

theorem State.requestInput_waiting {s : State} (h : s.env.inPinsNow.answer = none) :
    s.requestInput = (s.setEnv s.env.nextIn).setIoWait (some .inp) := by
  simp only [State.requestInput, h]

theorem State.requestInput_eof {s : State} (h : s.env.inPinsNow.answer = some none) :
    s.requestInput = (s.setEnv s.env.nextIn).completeIo (.inp none) := by
  simp only [State.requestInput, h]

theorem State.requestInput_byte {s : State} {b : Byte} (h : s.env.inPinsNow.answer = some (some b)) :
    s.requestInput = ((s.setEnv s.env.nextIn).memWrite s.dp b).completeIo (.inp (some b)) := by
  simp only [State.requestInput, h]

/-- One moment of an input transfer: suspended, end of input, or a byte stored. -/
theorem inputTransfer_cases {s t : State} (h : inputTransfer s = .next t) :
    s.dp < s.params.tapeLen ∧
    ((s.env.inPinsNow.answer = none ∧ t = (s.setEnv s.env.nextIn).setIoWait (some .inp)) ∨
     (s.env.inPinsNow.answer = some none ∧ t = (s.setEnv s.env.nextIn).completeIo (.inp none)) ∨
     ∃ b, s.env.inPinsNow.answer = some (some b) ∧
       t = ((s.setEnv s.env.nextIn).memWrite s.dp b).completeIo (.inp (some b))) := by
  obtain ⟨hd, ht⟩ := atCell_next h
  refine ⟨hd, ?_⟩
  match ha : s.env.inPinsNow.answer with
  | none => exact .inl ⟨rfl, by rw [State.requestInput_waiting ha] at ht; cases ht; rfl⟩
  | some none => exact .inr (.inl ⟨rfl, by rw [State.requestInput_eof ha] at ht; cases ht; rfl⟩)
  | some (some b) => exact .inr (.inr ⟨b, rfl, by rw [State.requestInput_byte ha] at ht; cases ht; rfl⟩)

end Sys2Proof.Machine
end

