-- ==== Sys2Proof/Laws/Exec.lean ====
section
/-! SUPPORT. What each instruction can do when it answers a next state: one inversion lemma per meaning, and one for `exec`. -/

namespace Sys2Proof.Machine

theorem execIncrementPointer_next {s t : State} (h : execIncrementPointer s = .next t) :
    s.dp + 1 < s.params.tapeLen ∧ t = (s.setDp (s.dp + 1)).advance := by
  unfold execIncrementPointer at h
  split at h
  · cases h
  · rename_i hd
    exact ⟨Nat.not_le.1 hd, by cases h; rfl⟩

theorem execDecrementPointer_next {s t : State} (h : execDecrementPointer s = .next t) :
    s.dp ≠ 0 ∧ t = (s.setDp (s.dp - 1)).advance := by
  unfold execDecrementPointer at h
  split at h
  · cases h
  · rename_i hd
    exact ⟨hd, by cases h; rfl⟩

theorem execJumpForward_next {s t : State} (h : execJumpForward s = .next t) :
    s.dp < s.params.tapeLen ∧
    ((s.cellIsZero = true ∧ ∃ q, s.program.target s.pc = some q ∧ t = s.setPc (q + 1)) ∨
     (s.cellIsZero = false ∧ t = s.advance)) := by
  obtain ⟨hd, ht⟩ := atCell_next h
  refine ⟨hd, ?_⟩
  change (if s.cellIsZero = true then _ else _) = _ at ht
  cases hz : s.cellIsZero with
  | true =>
    rw [hz, if_pos rfl] at ht
    obtain ⟨q, hq, ht⟩ := atTarget_next ht
    exact .inl ⟨rfl, q, hq, by cases ht; rfl⟩
  | false =>
    rw [hz, if_neg (by simp)] at ht
    exact .inr ⟨rfl, by cases ht; rfl⟩

theorem execJumpBackward_next {s t : State} (h : execJumpBackward s = .next t) :
    s.dp < s.params.tapeLen ∧
    ((s.cellIsZero = true ∧ t = s.advance) ∨
     (s.cellIsZero = false ∧ ∃ q, s.program.target s.pc = some q ∧ t = s.setPc q)) := by
  obtain ⟨hd, ht⟩ := atCell_next h
  refine ⟨hd, ?_⟩
  change (if s.cellIsZero = true then _ else _) = _ at ht
  cases hz : s.cellIsZero with
  | true =>
    rw [hz, if_pos rfl] at ht
    exact .inl ⟨rfl, by cases ht; rfl⟩
  | false =>
    rw [hz, if_neg (by simp)] at ht
    obtain ⟨q, hq, ht⟩ := atTarget_next ht
    exact .inr ⟨rfl, q, hq, by cases ht; rfl⟩

theorem execNoOp_next {s t : State} (h : execNoOp s = .next t) : t = s.advance := by
  cases h
  rfl

/-- What an instruction that answers a next state has done, per instruction. -/
def ExecNext (i : Instr) (s t : State) : Prop :=
  match i with
  | .incrementPointer => s.dp + 1 < s.params.tapeLen ∧ t = (s.setDp (s.dp + 1)).advance
  | .decrementPointer => s.dp ≠ 0 ∧ t = (s.setDp (s.dp - 1)).advance
  | .incrementValue => s.dp < s.params.tapeLen ∧ t = (s.memWrite s.dp (inc8 (s.memRead s.dp))).advance
  | .decrementValue => s.dp < s.params.tapeLen ∧ t = (s.memWrite s.dp (dec8 (s.memRead s.dp))).advance
  | .outputValue => s.dp < s.params.tapeLen ∧
      ((s.env.outReadyNow = true ∧ t = (s.setEnv s.env.nextOut).completeIo (.out (s.memRead s.dp))) ∨
       (s.env.outReadyNow = false ∧ t = (s.setEnv s.env.nextOut).setIoWait (some .out)))
  | .inputValue => s.dp < s.params.tapeLen ∧
      ((s.env.inPinsNow.answer = none ∧ t = (s.setEnv s.env.nextIn).setIoWait (some .inp)) ∨
       (s.env.inPinsNow.answer = some none ∧ t = (s.setEnv s.env.nextIn).completeIo (.inp none)) ∨
       ∃ b, s.env.inPinsNow.answer = some (some b) ∧
         t = ((s.setEnv s.env.nextIn).memWrite s.dp b).completeIo (.inp (some b)))
  | .jumpForward => s.dp < s.params.tapeLen ∧
      ((s.cellIsZero = true ∧ ∃ q, s.program.target s.pc = some q ∧ t = s.setPc (q + 1)) ∨
       (s.cellIsZero = false ∧ t = s.advance))
  | .jumpBackward => s.dp < s.params.tapeLen ∧
      ((s.cellIsZero = true ∧ t = s.advance) ∨
       (s.cellIsZero = false ∧ ∃ q, s.program.target s.pc = some q ∧ t = s.setPc q))
  | .noOp => t = s.advance

/-- The inversion lemma of `exec`. -/
theorem exec_next {i : Instr} {s t : State} (h : exec i s = .next t) : ExecNext i s t := by
  cases i with
  | incrementPointer => exact execIncrementPointer_next h
  | decrementPointer => exact execDecrementPointer_next h
  | incrementValue => exact updateCell_next h
  | decrementValue => exact updateCell_next h
  | outputValue => exact outputTransfer_cases h
  | inputValue => exact inputTransfer_cases h
  | jumpForward => exact execJumpForward_next h
  | jumpBackward => exact execJumpBackward_next h
  | noOp => exact execNoOp_next h

end Sys2Proof.Machine
end

