-- ==== Sys2Proof/Laws/Step.lean ====
section
/-! SUPPORT. What one transition can be: the inversion lemma of `step`, its value in each of the four situations, and runs. -/

namespace Sys2Proof.Machine

theorem step_suspendedOut {s : State} (h : s.ioWait = some .out) : step s = outputTransfer s := by
  simp only [step, transition, h]

theorem step_suspendedInp {s : State} (h : s.ioWait = some .inp) : step s = inputTransfer s := by
  simp only [step, transition, h]

theorem step_atEnd {s : State} (h : s.ioWait = none) (hp : s.pc = s.plen) : step s = .next s := by
  simp only [step, transition, stepCommand, h, if_pos hp]

theorem step_fetched {s : State} (h : s.ioWait = none) (hp : s.pc ≠ s.plen) :
    step s = exec (s.program.fetch s.pc) s := by
  simp only [step, transition, stepCommand, h, if_neg hp]

theorem Program.fetch_of_get {P : Program} {p : Nat} {i : Instr} (h : P.imem[p]? = some i) : P.fetch p = i := by
  simp only [Program.fetch, Program.getInstruction, h]

theorem Program.get_of_lt {P : Program} {p : Nat} (h : p < P.plen) : P.imem[p]? = some (P.fetch p) := by
  have hp : P.imem[p]? = some P.imem[p] := List.getElem?_eq_getElem h
  rw [Program.fetch_of_get hp, hp]

/-- A next state is one more moment of a pending transfer, the Halted no-op, or the fetched instruction's effect. -/
theorem step_next {s t : State} (h : step s = .next t) :
    (s.ioWait = some .out ∧ ExecNext .outputValue s t) ∨
    (s.ioWait = some .inp ∧ ExecNext .inputValue s t) ∨
    (s.ioWait = none ∧ s.pc = s.plen ∧ t = s) ∨
    (s.ioWait = none ∧ s.pc ≠ s.plen ∧ ExecNext (s.program.fetch s.pc) s t) := by
  match hw : s.ioWait with
  | some .out =>
    rw [step_suspendedOut hw] at h
    exact .inl ⟨rfl, exec_next (i := .outputValue) h⟩
  | some .inp =>
    rw [step_suspendedInp hw] at h
    exact .inr (.inl ⟨rfl, exec_next (i := .inputValue) h⟩)
  | none =>
    by_cases hp : s.pc = s.plen
    · rw [step_atEnd hw hp] at h
      cases h
      exact .inr (.inr (.inl ⟨rfl, hp, rfl⟩))
    · rw [step_fetched hw hp] at h
      exact .inr (.inr (.inr ⟨rfl, hp, exec_next h⟩))

/-! ## Runs -/

@[simp] theorem run_zero (s : State) : run 0 s = .next s := rfl

theorem run_succ {s t : State} (h : step s = .next t) (n : Nat) : run (n + 1) s = run n t := by
  simp only [run, h]

@[simp] theorem run_one (s : State) : run 1 s = step s := by
  cases hs : step s <;> simp only [run, hs]

/-- A run of `m + n` transitions is the run of `n` from where `m` led. -/
theorem run_add {s t : State} {m : Nat} (h : run m s = .next t) (n : Nat) : run (m + n) s = run n t := by
  induction m generalizing s with
  | zero => cases h; rw [Nat.zero_add]
  | succ m ih =>
    rw [Nat.add_right_comm]
    cases hs : step s with
    | next u => rw [run_succ hs] at h ⊢; exact ih h
    | fault f => simp only [run, hs] at h; cases h
    | refused r => simp only [run, hs] at h; cases h

/-! ## One instruction several times -/

@[simp] theorem execTimes_zero (i : Instr) (s : State) : execTimes 0 i s = .next s := rfl

theorem execTimes_succ {i : Instr} {s t : State} (h : exec i s = .next t) (n : Nat) :
    execTimes (n + 1) i s = execTimes n i t := by
  simp only [execTimes, h]

/-- `run` is the host's `Core.run` at this machine. -/
theorem core_run (n : Nat) (s : State) : core.run n s = run n s := by
  induction n generalizing s with
  | zero => rfl
  | succ n ih =>
    cases hs : step s with
    | next t =>
      have hc : core.step s = .next t := hs
      simp only [Host.Core.run, hc, run, hs]
      exact ih t
    | fault f =>
      have hc : core.step s = .fault f := hs
      simp only [Host.Core.run, hc, run, hs]
      rfl
    | refused r =>
      have hc : core.step s = .refused r := hs
      simp only [Host.Core.run, hc, run, hs]
      rfl

end Sys2Proof.Machine
end

