-- ==== Sys2Proof/Laws/HostPort.lean ====
section
/-! SUPPORT. What the host receives: of one transition of a STEP by its outcome, of a moment of a suspended STEP, and of a
command by whether the machine is suspended. -/

namespace Sys2Proof.Machine

theorem State.busy_of_none {s : State} (h : s.ioWait = none) : s.busy = false := by
  simp only [State.busy, h, Option.isSome_none]

theorem State.busy_of_some {s : State} {w : IoWait} (h : s.ioWait = some w) : s.busy = true := by
  simp only [State.busy, h, Option.isSome_some]

theorem State.stepNow_next {s t : State} (h : step s = .next t) :
    s.stepNow = (t, if t.busy then .suspended else .done .ok) := by
  simp only [State.stepNow, h]

theorem State.stepNow_fault {s : State} (h : step s = .fault .pointerOutOfBounds) :
    s.stepNow = (s, .done .pointerOutOfBounds) := by
  simp only [State.stepNow, h]

theorem State.resumeNow_idle {s : State} (h : s.ioWait = none) : s.resumeNow = (s, none) := by
  simp only [State.resumeNow, State.busy_of_none h, Bool.false_eq_true, if_false]

/-- A moment of a suspended STEP is one transition: it completes with `Ok`, or is suspended still. -/
theorem State.resumeNow_next {s t : State} {w : IoWait} (hw : s.ioWait = some w) (h : step s = .next t) :
    s.resumeNow = (t, some (if t.busy then .suspended else .done .ok)) := by
  simp only [State.resumeNow, State.busy_of_some hw, if_true, State.stepNow_next h]

@[simp] theorem State.command_reset (s : State) : s.command .reset = (s.resetNow, .done .ok) := rfl

theorem State.command_load_idle {s : State} (h : s.ioWait = none) (ws : List OpWord) :
    s.command (.load ws) = s.load ws := by
  simp only [State.command, State.busy_of_none h, Bool.false_eq_true, if_false]

theorem State.command_step_idle {s : State} (h : s.ioWait = none) : s.command .step = s.stepNow := by
  simp only [State.command, State.busy_of_none h, Bool.false_eq_true, if_false]

theorem State.command_load_busy {s : State} {w : IoWait} (h : s.ioWait = some w) (ws : List OpWord) :
    s.command (.load ws) = (s, .notTaken) := by
  simp only [State.command, State.busy_of_some h, if_true]

theorem State.command_step_busy {s : State} {w : IoWait} (h : s.ioWait = some w) :
    s.command .step = (s, .notTaken) := by
  simp only [State.command, State.busy_of_some h, if_true]

end Sys2Proof.Machine
end

