-- ==== Sys2Proof/Laws/Loader.lean ====
section
/-! SUPPORT. The small laws of program construction: the depth count over an append, one scan step by case, the scan over an
append, and what a successful construction has computed. -/

namespace Sys2Proof

/-! ## The depth count -/

@[simp] theorem balancedFrom_nil (d : Nat) : balancedFrom d [] = (d == 0) := by
  cases d <;> rfl

@[simp] theorem balancedFrom_open (d : Nat) (is : List Instr) :
    balancedFrom d (.jumpForward :: is) = balancedFrom (d + 1) is := by
  cases d <;> rfl

@[simp] theorem balancedFrom_close_succ (d : Nat) (is : List Instr) :
    balancedFrom (d + 1) (.jumpBackward :: is) = balancedFrom d is := rfl

@[simp] theorem balancedFrom_close_zero (is : List Instr) : balancedFrom 0 (.jumpBackward :: is) = false := rfl

theorem balancedFrom_other {i : Instr} (hf : i ≠ .jumpForward) (hb : i ≠ .jumpBackward) (d : Nat) (is : List Instr) :
    balancedFrom d (i :: is) = balancedFrom d is := by
  cases i <;> first | rfl | contradiction

/-- A balanced stretch changes no depth. -/
theorem balancedFrom_append {d e : Nat} {is js : List Instr} (h : balancedFrom d is = true) :
    balancedFrom (d + e) (is ++ js) = balancedFrom e js := by
  induction is generalizing d with
  | nil =>
    have hd : d = 0 := by simpa using h
    simp [hd]
  | cons i is ih =>
    by_cases hf : i = .jumpForward
    · subst hf
      rw [List.cons_append, balancedFrom_open, Nat.add_right_comm]
      exact ih (by simpa using h)
    · by_cases hb : i = .jumpBackward
      · subst hb
        cases d with
        | zero => simp at h
        | succ d =>
          rw [List.cons_append, Nat.add_right_comm, balancedFrom_close_succ]
          exact ih (by simpa using h)
      · rw [List.cons_append, balancedFrom_other hf hb]
        exact ih (by rwa [balancedFrom_other hf hb] at h)

end Sys2Proof

namespace Sys2Proof.Machine

/-! ## One step of the scan -/

theorem scanStep_open (k : Nat) (sc : Scan) :
    scanStep k .jumpForward sc = .ok { stack := k :: sc.stack, jt := sc.jt ++ [none] } := rfl

theorem scanStep_close_nil {k : Nat} {sc : Scan} (h : sc.stack = []) :
    scanStep k .jumpBackward sc = .error (.malformedProgram .closing k) := by
  simp only [scanStep, h]

theorem scanStep_close_cons {k j : Nat} {rest : List Nat} {sc : Scan} (h : sc.stack = j :: rest) :
    scanStep k .jumpBackward sc = .ok { stack := rest, jt := sc.jt.set j (some k) ++ [some j] } := by
  simp only [scanStep, h]

theorem scanStep_other {i : Instr} (hf : i ≠ .jumpForward) (hb : i ≠ .jumpBackward) (k : Nat) (sc : Scan) :
    scanStep k i sc = .ok { sc with jt := sc.jt ++ [none] } := by
  cases i <;> first | rfl | contradiction

/-! ## The whole scan -/

theorem scan_cons_ok {k : Nat} {i : Instr} {is : List Instr} {sc sc' : Scan} (h : scanStep k i sc = .ok sc') :
    scan k (i :: is) sc = scan (k + 1) is sc' := by
  simp only [scan, h]

theorem scan_cons_error {k : Nat} {i : Instr} {is : List Instr} {sc : Scan} {e : ConstructError}
    (h : scanStep k i sc = .error e) : scan k (i :: is) sc = .error e := by
  simp only [scan, h]

/-- Scanning two stretches is scanning the first, then the second from where it ended. -/
theorem scan_append {k : Nat} {is js : List Instr} {sc sc' : Scan} (h : scan k is sc = .ok sc') :
    scan k (is ++ js) sc = scan (k + is.length) js sc' := by
  induction is generalizing k sc with
  | nil => cases h; rfl
  | cons i is ih =>
    cases hs : scanStep k i sc with
    | error e => rw [scan_cons_error hs] at h; cases h
    | ok sc₁ =>
      rw [scan_cons_ok hs] at h
      rw [List.cons_append, scan_cons_ok hs, ih h, List.length_cons]
      congr 1
      omega

/-! ## Construction -/

/-- A successful construction keeps the instructions and ends the scan with nothing pending. -/
theorem buildProgram_ok {is : List Instr} {P : Program} (h : buildProgram is = .ok P) :
    P.imem = is ∧ scan 0 is { stack := [], jt := [] } = .ok { stack := [], jt := P.jt } := by
  unfold buildProgram at h
  cases hs : scan 0 is { stack := [], jt := [] } with
  | error e => rw [hs] at h; cases h
  | ok sc =>
    obtain ⟨st, jt⟩ := sc
    rw [hs] at h
    unfold closeScan at h
    cases st with
    | nil => cases h; exact ⟨rfl, rfl⟩
    | cons j st =>
      obtain ⟨b, hb⟩ : ∃ b, (j :: st).getLast? = some b := ⟨_, List.getLast?_eq_some_getLast (by simp)⟩
      simp only [hb] at h
      cases h

theorem construct_ok {ws : List OpWord} {P : Program} (h : construct ws = .ok P) :
    ∃ is, decodeWords 0 ws = .ok is ∧ buildProgram is = .ok P := by
  unfold construct at h
  cases hd : decodeWords 0 ws with
  | error e => rw [hd] at h; cases h
  | ok is => exact ⟨is, rfl, by rwa [hd] at h⟩

end Sys2Proof.Machine
end

