-- ==== Sys2Proof/Laws/PerInstr.lean ====
section
/-! SUPPORT. Statements for all instructions, per constructor. `EncodedWordSpellsIt`: the word of every instruction is one of the nine
that spell an instruction, as a number it is the one of the opcode table, and only the two jumps are brackets. -/

namespace Sys2Proof.Laws.EncodedWordSpellsIt

/-- The encoded word is well formed, reads back from the table's numbering whatever width the table states, and the
instruction alone is a balanced program exactly if it is no bracket. -/
def Statement (i : Instr) : Prop :=
  OpWord.wf (encode i) = true ∧ decodeTableWord 4 (encode i).toNat = some i ∧
  decodeTableWord 8 (encode i).toNat = some i ∧
  (balanced [i] = true ↔ i ≠ .jumpForward ∧ i ≠ .jumpBackward)

theorem incrementPointer : Statement .incrementPointer := by unfold Statement; decide
theorem decrementPointer : Statement .decrementPointer := by unfold Statement; decide
theorem incrementValue : Statement .incrementValue := by unfold Statement; decide
theorem decrementValue : Statement .decrementValue := by unfold Statement; decide
theorem outputValue : Statement .outputValue := by unfold Statement; decide
theorem inputValue : Statement .inputValue := by unfold Statement; decide
theorem jumpForward : Statement .jumpForward := by unfold Statement; decide
theorem jumpBackward : Statement .jumpBackward := by unfold Statement; decide
theorem noOp : Statement .noOp := by unfold Statement; decide

end Sys2Proof.Laws.EncodedWordSpellsIt
end

