-- ==== Sys2Proof/Tests/Slice0.lean ====
section
/-! SUPPORT. The model's own tests: the decoder on words written out from 30_encoding.md R71, the checks of WellFormed on ill-formed
terms, vectors of 95_test_vectors.md (S<n>, V<n>), and for every statement that has hypotheses a concrete state that meets them. -/

namespace Sys2Proof.Tests

open Sys2Proof.Machine

/-! ## Helpers -/

/-- A machine of `n` cells (and room for nine instructions) holding the program of these words, not suspended, whose
collaborator is ready as `rdy` says and presents `ins`. -/
def machine (n : Nat) (ws : List OpWord) (pc dp : Nat) (cells : Memory := []) (rdy : List Bool := [])
    (ins : List InPins := []) : State :=
  let s := State.fresh { tapeLen := n, imemCap := some 9 } { Env.fresh with outReady := rdy, inPins := ins }
  match construct ws with
  | .ok P => { s with program := P, pc := pc, dp := dp, tape := cells }
  | .error _ => s

/-- Is the outcome a next state of which `p` holds? -/
def nextIs (r : Result) (p : State → Bool) : Bool :=
  match r with
  | .next t => p t
  | .fault _ => false
  | .refused _ => false

/-- Is the outcome the spec's fault? -/
def faults (r : Result) : Bool :=
  match r with
  | .fault f => decide (f = .pointerOutOfBounds)
  | .next _ => false
  | .refused _ => false

def byte (b : Byte) : InPins := { valid := true, eof := false, data := b }
def eof : InPins := { valid := true, eof := true, data := 0x55 }
def noAnswer : InPins := { valid := false, eof := true, data := 0x55 }

/-! ## Decoding (R71: words bit by bit from the opcode map) -/

theorem test_decode_incrementPointer : decode 0b0000 = .instr .incrementPointer := by decide
theorem test_decode_decrementPointer : decode 0b0001 = .instr .decrementPointer := by decide
theorem test_decode_incrementValue : decode 0b0010 = .instr .incrementValue := by decide
theorem test_decode_decrementValue : decode 0b0011 = .instr .decrementValue := by decide
theorem test_decode_outputValue : decode 0b0100 = .instr .outputValue := by decide
theorem test_decode_inputValue : decode 0b0101 = .instr .inputValue := by decide
theorem test_decode_jumpForward : decode 0b0110 = .instr .jumpForward := by decide
theorem test_decode_jumpBackward : decode 0b0111 = .instr .jumpBackward := by decide
theorem test_decode_noOp : decode 0b1000 = .instr .noOp := by decide
theorem test_decode_reserved :
    ∀ w ∈ ([0x9, 0xA, 0xB, 0xC, 0xD, 0xE, 0xF] : List OpWord), decode w = .invalid := by decide
theorem test_table_word : decodeTableWord 8 0x6 = some .jumpForward ∧ decodeTableWord 4 0x9 = none ∧
    decodeTableWord 8 0x16 = none := by decide

/-! ## WellFormed refuses the ill-formed (R75, R132, R133) -/

theorem test_wf_refuses_reserved_word : OpWord.wf 0x9 = false ∧ OpWord.wf 0xF = false ∧ OpWord.wf 0x8 = true := by decide
theorem test_balanced_refuses_lone_close : balanced [.jumpBackward] = false := by decide
theorem test_balanced_refuses_lone_open : balanced [.jumpForward] = false := by decide
theorem test_balanced_refuses_crossed : balanced [.jumpBackward, .jumpForward] = false := by decide
theorem test_balanced_accepts_nested :
    balanced [.jumpForward, .jumpForward, .noOp, .jumpBackward, .jumpBackward] = true := by decide

/-! ## The cell ALU (V2, V4, V5, V7, V9, V11 to V13) -/

theorem test_nybFrom : [0x00, 0x0F, 0x10, 0xAB, 0xFF].map nybFrom = [0x0, 0xF, 0x0, 0xB, 0xF] := by decide
theorem test_inc4 : [0x0, 0x7, 0xE, 0xF].map inc4 = [(0x1, 0), (0x8, 0), (0xF, 0), (0x0, 1)] := by decide
theorem test_dec4 : [0x0, 0x1, 0x8, 0xF].map dec4 = [(0xF, 1), (0x0, 0), (0x7, 0), (0xE, 0)] := by decide
theorem test_bitAt : [0, 1, 2, 3, 4].map (bitAt (0x8 : Nybble)) = [some 1, some 0, some 0, some 0, none] := by decide
theorem test_byteFrom : [256, 300, 511].map byteFrom = [0, 44, 255] := by decide
theorem test_bitSeq : bitSeq (0xA7 : Byte) = [1, 0, 1, 0, 0, 1, 1, 1] := by decide
theorem test_inc8 : [0x00, 0x0E, 0x0F, 0x7F, 0xEF, 0xFE, 0xFF].map inc8 = [0x01, 0x0F, 0x10, 0x80, 0xF0, 0xFF, 0x00] := by
  decide
theorem test_dec8 : [0x00, 0x01, 0x10, 0x80, 0xF0, 0xFF].map dec8 = [0xFF, 0x00, 0x0F, 0x7F, 0xEF, 0xFE] := by decide
theorem test_isZero8 : [0x00, 0x01, 0x10, 0x80, 0xFF].map isZero8 = [true, false, false, false, false] := by decide
/-- R101: 1 is true. -/
theorem test_bit_bool : bitToBool 1 = true ∧ bitToBool 0 = false ∧ bitFromBool true = 1 ∧ bitFromBool false = 0 := by
  decide

/-! ## Construction (V20, V23, V25 to V30) and the assembler (30_encoding.md section 7) -/

theorem test_construct_empty : construct [] = .ok .empty := by decide
theorem test_construct_nested : (construct [2, 6, 0, 6, 3, 7, 1, 3, 7]).map Program.jt =
    .ok [none, some 8, none, some 5, none, some 3, none, none, some 1] := by decide
theorem test_construct_noop_has_no_entry : (construct [6, 8, 7]).map Program.jt = .ok [some 2, none, some 0] := by decide
theorem test_construct_unmatched_close : construct [6, 7, 7] = .error (.malformedProgram .closing 2) ∧
    construct [7, 6] = .error (.malformedProgram .closing 0) := by decide
theorem test_construct_unmatched_open : construct [6, 6, 7] = .error (.malformedProgram .opening 0) := by decide
theorem test_construct_invalid_wins : construct [2, 9] = .error (.invalidOpcode 1) ∧
    construct [7, 0xF] = .error (.invalidOpcode 1) := by decide
theorem test_assemble : (assemble ['+', ' ', '[', ' ', '-', ' ', ']', ' ', 'c']).map encode = [2, 6, 3, 7] := by decide

/-! ## Instructions, one step each -/

theorem test_incrementPointer_last_move : nextIs (step (machine 30000 [0] 0 29998)) fun t => t.dp == 29999 && t.pc == 1 := by
  decide  -- V33
theorem test_incrementPointer_faults : faults (step (machine 30000 [0] 0 29999)) = true := by decide  -- V34
theorem test_decrementPointer : nextIs (step (machine 8 [1] 0 1)) fun t => t.dp == 0 && t.pc == 1 := by decide  -- V36
theorem test_decrementPointer_faults : faults (step (machine 8 [1] 0 0)) = true := by decide  -- V37
theorem test_incrementValue_wraps : nextIs (step (machine 8 [2] 0 3 [(2, 7), (3, 255), (4, 7)])) fun t =>
    t.tape == [(2, 7), (4, 7)] && t.memRead 3 == 0 && t.halted := by decide  -- V42, V47
theorem test_incrementValue_only_current : nextIs (step (machine 8 [2] 0 3 [(2, 7), (3, 7), (4, 7)])) fun t =>
    [2, 3, 4].map t.memRead == [7, 8, 7] := by decide  -- V47
theorem test_decrementValue_wraps : nextIs (step (machine 8 [3] 0 0)) fun t =>
    t.memRead 0 == 255 && t.pc == 1 && t.halted := by decide  -- V43
theorem test_decrementValue_borrows : nextIs (step (machine 8 [3] 0 0 [(0, 16)])) fun t => t.memRead 0 == 15 := by
  decide  -- V44
theorem test_outputValue : nextIs (step (machine 8 [4] 0 0 [(0, 0x41)] [true])) fun t =>
    t.env.events == [.out 0x41] && t.pc == 1 && t.memRead 0 == 0x41 && t.ioWait == none := by decide  -- V49
theorem test_outputValue_suspends : nextIs (step (machine 8 [4] 0 0 [(0, 0x41)] [false])) fun t =>
    t.env.events == [] && t.pc == 0 && t.busy && t.outData == some 0x41 &&
    (t.command .step).2 == .notTaken && (t.command (.load [])).2 == .notTaken := by decide  -- V51, V77
theorem test_inputValue_zero_byte : nextIs (step (machine 8 [5] 0 0 [(0, 7)] [] [byte 0])) fun t =>
    t.memRead 0 == 0 && t.pc == 1 && t.env.events == [.inp (some 0)] := by decide  -- V53
theorem test_inputValue_end : nextIs (step (machine 8 [5] 0 0 [(0, 7)] [] [eof])) fun t =>
    t.memRead 0 == 7 && t.pc == 1 && t.env.events == [.inp none] := by decide  -- V54
theorem test_jumpForward_taken : nextIs (step (machine 8 [6, 2, 7, 2] 0 0)) fun t => t.pc == 3 := by decide  -- V58
theorem test_jumpForward_high_nybble : nextIs (step (machine 8 [6, 2, 7, 2] 0 0 [(0, 0x10)])) fun t => t.pc == 1 := by
  decide  -- V59, V70
theorem test_jumpBackward_taken : nextIs (step (machine 8 [2, 2, 6, 3, 7] 4 0 [(0, 1)])) fun t => t.pc == 2 := by
  decide  -- V62
theorem test_jumpBackward_falls_through : nextIs (step (machine 8 [2, 6, 3, 7] 3 0)) fun t => t.pc == 4 && t.halted := by
  decide  -- V61
theorem test_noOp : nextIs (step (machine 8 [2, 8, 2] 1 0 [(0, 1)])) fun t => t.pc == 2 && t.tape == [(0, 1)] := by
  decide  -- V68

/-! ## The host's commands (V71, V73, V74, S8) -/

theorem test_step_before_load : State.reset.command .step = (State.reset, .done .ok) := by
  rw [State.command, State.stepNow]
  rfl
theorem test_load_keeps_tape : (let t := ((machine 8 [2, 2, 2] 2 0 [(0, 2)]).command (.load [3])).1
    t.pc == 0 && t.plen == 1 && t.memRead 0 == 2 && nextIs (step t) fun u => u.memRead 0 == 1 && u.halted) = true := by
  decide
theorem test_fault_leaves_state : (let s := machine 2 [0, 0] 1 1
    (s.command .step == (s, .done .pointerOutOfBounds)) && s.running &&
    ((s.command (.load [1, 2])).1.pc == 0) && ((s.command (.load [1, 2])).1.dp == 1)) = true := by decide
theorem test_load_errors : (let s := machine 8 [2, 2, 2] 2 0 [(0, 2)]
    (s.command (.load [6]) == (s, .done .malformedProgram)) && (s.command (.load [2, 9]) == (s, .done .invalidOpcode)) &&
    (s.command (.load [8, 8, 8, 8, 8, 8, 8, 8, 8, 8]) == (s, .refused .programTooLong))) = true := by decide
/-- R7, U10. -/
theorem test_no_tape_refused :
    constructMachine { tapeLen := 0, imemCap := none } .fresh = .error .tapeLengthZero := by decide
/-- R221, R159. -/
theorem test_codes_and_priority : [Cause.ok, .malformedProgram, .pointerOutOfBounds, .invalidOpcode].map Cause.code =
    [0, 1, 2, 3] ∧ Strobes.winner { rst := true, load := some [2], step := true } = some .reset ∧
    Strobes.winner { rst := false, load := some [2], step := true } = some (.load [2]) ∧
    Strobes.winner { rst := false, load := none, step := true } = some .step := by decide
/-- R156, R192, R195: the suspended STEP answers `Ok` (code 0) when its transfer completes, and nothing before. -/
theorem test_resume_output : (let s := (machine 8 [4] 0 0 [(0, 0x41)] [false, false, true]).command .step
    let u := s.1.resumeNow
    let v := u.1.resumeNow
    s.2 == .suspended && u.2 == some .suspended && v.2 == some (.done .ok) && v.2.bind Reply.result == some 0 &&
    v.1.env.events == [.out 0x41] && v.1.halted && v.1.resumeNow.2 == none) = true := by decide
theorem test_resume_input_end : (let s := (machine 8 [5] 0 0 [(0, 7)] [] [noAnswer, eof]).command .step
    let u := s.1.resumeNow
    s.2 == .suspended && u.2 == some (.done .ok) && u.1.memRead 0 == 7 && u.1.pc == 1) = true := by decide
/-- R38. -/
theorem test_debug_view : (machine 8 [2] 0 0 [(5, 9)]).debugCell 5 = some 9 ∧ (machine 8 [2] 0 0).debugCell 8 = none := by
  decide
/-- 00_scope.md parameter table: 15 bits at the default length; 1 bit at the least. -/
theorem test_widths : Params.default.dpWidth = 15 ∧ Params.dpWidth { tapeLen := 1, imemCap := none } = 1 := by
  decide
/-- The word of every row runs as the first instruction after reset (the host's two names). -/
theorem test_withFetchWord : nextIs (step (State.reset.withFetchWord 8 0x2)) (fun t => t.memRead 0 == 1) = true ∧
    faults (step (State.reset.withFetchWord 8 0x1)) = true ∧
    nextIs (step (State.reset.withFetchWord 8 0x7)) (fun t => t.halted) = true := by decide

/-! ## Witnesses: for each statement with hypotheses, states and operands that meet them, clause by clause, at the bounds of
their ranges -/

/-- `+[-]` (S7) on a tape of two cells at its last cell. -/
def loop (pc : Nat) (cell : Byte) : State := machine 2 [2, 6, 3, 7] pc 1 (if cell = 0 then [] else [(1, cell)])

/-- `.,` on one cell holding 0x41. -/
def talk (pc : Nat) (rdy : List Bool) (ins : List InPins) : State := machine 1 [4, 5] pc 0 [(0, 0x41)] rdy ins

/-- The same, suspended. -/
def waiting (w : IoWait) (rdy : List Bool) (ins : List InPins) : State :=
  (talk (if w = .out then 0 else 1) rdy ins).setIoWait (some w)

theorem loop_inv : (loop 1 5).Inv :=
  ⟨by decide, by decide, by decide, by decide, by decide, by decide, by decide, trivial⟩
theorem loop_end_inv : (loop 4 0).Inv :=
  ⟨by decide, by decide, by decide, by decide, by decide, by decide, by decide, trivial⟩
theorem loop_back_inv : (loop 3 5).Inv :=
  ⟨by decide, by decide, by decide, by decide, by decide, by decide, by decide, trivial⟩
theorem waiting_out_inv : (waiting .out [false] []).Inv :=
  ⟨by decide, by decide, by decide, by decide, by decide, by decide, by decide, rfl⟩
theorem waiting_inp_inv : (waiting .inp [] [noAnswer]).Inv :=
  ⟨by decide, by decide, by decide, by decide, by decide, by decide, by decide, rfl⟩
theorem atFault_inv : (machine 2 [0, 0] 1 1).Inv :=
  ⟨by decide, by decide, by decide, by decide, by decide, by decide, by decide, trivial⟩

theorem witness_BitAndNybbleConversionsMask : (15 : Byte).toNat ≤ 15 := by decide
theorem witness_ByteRoundTripLaws : 255 ≤ 255 := by decide
theorem witness_IndexedBitsMostSignificantFirst : 4 ≤ 4 ∧ 3 < 4 := by decide
theorem witness_DecodeEncodeAgree : decode 0x8 = .instr .noOp := by decide
theorem witness_CharactersAndTagsPair : 'N' ∉ ['>', '<', '+', '-', '.', ',', '[', ']'] ∧ Instr.toChar .jumpBackward = some ']' ∧ Instr.toChar .noOp = none := by decide
theorem witness_CommentsGiveNoInstruction : Instr.ofChar 'N' = none ∧ Instr.ofChar '>' = some .incrementPointer := by decide
theorem witness_JumpTablePairsBrackets : ∃ P, buildProgram [.jumpForward, .jumpForward, .jumpBackward, .jumpBackward] = .ok P ∧
    P.target 0 = some 3 ∧ P.target 1 = some 2 ∧ P.target 3 = some 0 := ⟨_, rfl, by decide, by decide, by decide⟩
theorem witness_EncodedProgramsConstruct : balanced [] = true ∧ balanced [.jumpForward, .noOp, .jumpBackward] = true := by
  decide
theorem witness_FetchIsTotal : 3 < (loop 0 0).program.plen ∧ (loop 0 0).program.plen ≤ 4 := by decide
/-- At the capacity, nine words; and the empty program. -/
theorem witness_LoadInstallsProgram : (loop 2 5).ioWait = none ∧ (loop 2 5).params.fits 9 = true ∧
    (∃ P, construct [6, 8, 8, 8, 8, 8, 8, 8, 7] = .ok P ∧ 0 < P.plen) ∧ (∃ P, construct [] = .ok P ∧ P.plen = 0) :=
  ⟨by decide, by decide, ⟨_, rfl, by decide⟩, ⟨_, rfl, by decide⟩⟩
theorem witness_FailedLoadChangesNothing : (loop 2 5).ioWait = none ∧ (loop 2 5).params.fits 2 = true ∧
    construct [7, 9] = .error (.invalidOpcode 1) ∧ construct [2, 7] = .error (.malformedProgram .closing 1) := by decide
theorem witness_ProgramIsReadOnly : (∃ P, buildProgram [.noOp] = .ok P) ∧ (∃ t, exec .incrementValue (loop 0 0) = .next t) ∧ ∃ t, step (loop 0 0) = .next t :=
  ⟨⟨_, rfl⟩, ⟨_, rfl⟩, ⟨_, rfl⟩⟩
theorem witness_BusyMachineTakesNoCommand : (waiting .out [] []).ioWait ≠ none ∧ (waiting .inp [] []).ioWait ≠ none := by
  decide
theorem witness_StepRunsFetchedInstruction : (loop 3 0).ioWait = none ∧
    (loop 3 0).program.imem[(loop 3 0).pc]? = some .jumpBackward := by decide
theorem witness_StepRunsDecodedWord : (loop 3 0).ioWait = none ∧ construct [2, 6, 3, 7] = .ok (loop 3 0).program ∧
    ([2, 6, 3, 7] : List OpWord)[(loop 3 0).pc]? = some 7 ∧ decode 7 = .instr .jumpBackward := by decide
theorem witness_HaltedStepsChangeNothing : (loop 4 0).ioWait = none ∧ (loop 4 0).pc = (loop 4 0).plen := by decide
theorem witness_RunStates : (loop 4 0).Inv ∧ (loop 4 0).halted = true ∧ (∃ t, step (loop 4 0) = .next t) ∧
    (machine 2 [0, 0] 1 1).Inv ∧ ∃ f, step (machine 2 [0, 0] 1 1) = .fault f :=
  ⟨loop_end_inv, by decide, ⟨_, rfl⟩, atFault_inv, ⟨_, rfl⟩⟩
/-- The last instruction, falling through; and the two sides of an I/O instruction. -/
theorem witness_DefaultAdvance : (loop 3 0).ioWait = none ∧ (loop 3 0).pc < (loop 3 0).plen ∧
    ¬ (loop 3 0).cellIsZero = false ∧ (∃ t, exec .jumpBackward (loop 3 0) = .next t ∧ t.ioWait = none) ∧
    (talk 0 [false] []).ioWait = none ∧ (talk 0 [false] []).pc < (talk 0 [false] []).plen ∧
    ∃ t, exec .outputValue (talk 0 [false] []) = .next t ∧ t.ioWait ≠ none :=
  ⟨by decide, by decide, by decide, ⟨_, rfl, by decide⟩, by decide, by decide, ⟨_, rfl, by decide⟩⟩
theorem witness_FaultRepeats : step (machine 2 [0, 0] 1 1) = .fault .pointerOutOfBounds := rfl
theorem witness_EndFaultAndSuspensionAreDistinct : (loop 4 0).Inv ∧ (loop 4 0).Ended ∧ (machine 2 [0, 0] 1 1).Inv ∧
    (machine 2 [0, 0] 1 1).AtFault ∧ (waiting .out [false] []).Inv ∧ (waiting .out [false] []).Suspended :=
  ⟨loop_end_inv, ⟨by decide, by decide⟩, atFault_inv, rfl, waiting_out_inv, by unfold State.Suspended; decide⟩
/-- `dp` at the last cell but one moves, at the last cell faults. -/
theorem witness_IncrementPointerEffect : (machine 2 [0, 0] 0 0).dp + 1 < (machine 2 [0, 0] 0 0).params.tapeLen ∧
    (machine 2 [0, 0] 1 1).params.tapeLen ≤ (machine 2 [0, 0] 1 1).dp + 1 ∧ (machine 2 [0, 0] 1 1).ioWait = none ∧
    (machine 2 [0, 0] 1 1).program.imem[(machine 2 [0, 0] 1 1).pc]? = some .incrementPointer := by decide
theorem witness_DecrementPointerEffect : (machine 2 [1] 0 1).dp ≠ 0 ∧ (machine 2 [1] 0 0).dp = 0 ∧
    (machine 2 [1] 0 0).ioWait = none ∧
    (machine 2 [1] 0 0).program.imem[(machine 2 [1] 0 0).pc]? = some .decrementPointer := by decide
theorem witness_PointerFaultConditions : (machine 1 [0] 0 0).dp < (machine 1 [0] 0 0).params.tapeLen ∧
    step (machine 1 [0] 0 0) = .fault .pointerOutOfBounds := ⟨by decide, rfl⟩
theorem witness_PointerNeverLeavesRange : (loop 1 5).dp < (loop 1 5).params.tapeLen ∧ (∃ t, step (loop 1 5) = .next t) ∧
    (machine 2 [0, 0] 1 1).ioWait = none ∧
    (machine 2 [0, 0] 1 1).program.imem[(machine 2 [0, 0] 1 1).pc]? = some .incrementPointer ∧
    (machine 2 [0, 0] 1 1).dp + 1 = (machine 2 [0, 0] 1 1).params.tapeLen ∧
    (machine 2 [1] 0 0).program.imem[(machine 2 [1] 0 0).pc]? = some .decrementPointer ∧ (machine 2 [1] 0 0).dp = 0 :=
  ⟨by decide, ⟨_, rfl⟩, by decide, by decide, by decide, by decide, by decide⟩
/-- At the last cell, holding 255. -/
theorem witness_IncrementValueEffect : (loop 0 255).dp < (loop 0 255).params.tapeLen ∧ (loop 0 255).tape.wf ∧
    (loop 0 255).memRead (loop 0 255).dp = 255 := by decide
/-- At the last cell, holding 0. -/
theorem witness_DecrementValueEffect : (loop 2 0).dp < (loop 2 0).params.tapeLen ∧ (loop 2 0).tape.wf ∧
    (loop 2 0).memRead (loop 2 0).dp = 0 := by decide
theorem witness_OutputValueCompletes : (talk 0 [true] []).dp < (talk 0 [true] []).params.tapeLen ∧
    (talk 0 [true] []).ioWait = none ∧ (talk 0 [true] []).env.outReadyNow = true := by decide
theorem witness_InputValueStoresByte : (talk 1 [] [byte 0]).dp < (talk 1 [] [byte 0]).params.tapeLen ∧
    (talk 1 [] [byte 0]).tape.wf ∧ (talk 1 [] [byte 0]).ioWait = none ∧
    (talk 1 [] [byte 0]).env.inPinsNow.valid = true ∧ (talk 1 [] [byte 0]).env.inPinsNow.eof = false := by decide
theorem witness_InputValueAtEndOfInput : (talk 1 [] [eof]).dp < (talk 1 [] [eof]).params.tapeLen ∧
    (talk 1 [] [eof]).ioWait = none ∧ (talk 1 [] [eof]).env.inPinsNow.valid = true ∧
    (talk 1 [] [eof]).env.inPinsNow.eof = true := by decide
theorem witness_IoInstructionsSuspend : (talk 0 [false] [noAnswer]).dp < (talk 0 [false] [noAnswer]).params.tapeLen ∧
    (talk 0 [false] [noAnswer]).env.outReadyNow = false ∧ (talk 0 [false] [noAnswer]).env.inPinsNow.valid = false := by decide
theorem witness_SuspendedOutputEqualsOneCall : (talk 0 [false, false, true] []).ioWait = none ∧
    (talk 0 [false, false, true] []).program.imem[(talk 0 [false, false, true] []).pc]? = some .outputValue ∧
    (talk 0 [false, false, true] []).dp < (talk 0 [false, false, true] []).params.tapeLen ∧
    (talk 0 [false, false, true] []).env.outReady = List.replicate 2 false ++ true :: [] := by decide
theorem witness_SuspendedInputEqualsOneCall : (talk 1 [] [noAnswer, byte 9]).ioWait = none ∧
    (talk 1 [] [noAnswer, byte 9]).program.imem[(talk 1 [] [noAnswer, byte 9]).pc]? = some .inputValue ∧
    (talk 1 [] [noAnswer, byte 9]).dp < (talk 1 [] [noAnswer, byte 9]).params.tapeLen ∧
    (∀ w ∈ [noAnswer], w.valid = false) ∧ (byte 9).valid = true ∧
    (talk 1 [] [noAnswer, byte 9]).env.inPins = [noAnswer] ++ byte 9 :: [] := by decide
/-- The answer is end of input. -/
theorem witness_SuspendedInputEqualsOneCall_end : (talk 1 [] [noAnswer, eof]).ioWait = none ∧
    (talk 1 [] [noAnswer, eof]).program.imem[(talk 1 [] [noAnswer, eof]).pc]? = some .inputValue ∧
    (talk 1 [] [noAnswer, eof]).dp < (talk 1 [] [noAnswer, eof]).params.tapeLen ∧
    (∀ w ∈ [noAnswer], w.valid = false) ∧ eof.valid = true ∧ eof.eof = true ∧
    (talk 1 [] [noAnswer, eof]).env.inPins = [noAnswer] ++ eof :: [] := by decide
theorem witness_SuspendedStepDeliversOk : (waiting .out [true] []).dp < (waiting .out [true] []).params.tapeLen ∧
    (waiting .out [true] []).ioWait = some .out ∧ (waiting .out [true] []).env.outReadyNow = true ∧
    (waiting .inp [] [eof]).dp < (waiting .inp [] [eof]).params.tapeLen ∧
    (waiting .inp [] [eof]).ioWait = some .inp ∧ (waiting .inp [] [eof]).env.inPinsNow.valid = true ∧
    (waiting .out [false] []).env.outReadyNow = false ∧ (waiting .inp [] [noAnswer]).env.inPinsNow.valid = false ∧
    (talk 0 [false] []).ioWait = none ∧ ∃ t, step (talk 0 [false] []) = .next t :=
  ⟨by decide, by decide, by decide, by decide, by decide, by decide, by decide, by decide, by decide, ⟨_, rfl⟩⟩
theorem witness_UnansweredTransferWaits : (waiting .out [false] []).dp < (waiting .out [false] []).params.tapeLen ∧
    (waiting .out [false] []).ioWait = some .out ∧
    (∃ rest, (waiting .out [false] []).env.outReady = List.replicate 1 false ++ rest) ∧
    (waiting .inp [] [noAnswer]).ioWait = some .inp ∧
    ∃ ws rest, ws.length = 1 ∧ (∀ w ∈ ws, w.valid = false) ∧ (waiting .inp [] [noAnswer]).env.inPins = ws ++ rest :=
  ⟨by decide, by decide, ⟨[], by decide⟩, by decide, ⟨[noAnswer], [], by decide, by decide, by decide⟩⟩
theorem witness_OneTransactionPerIoInstruction :
    (∃ t, exec .outputValue (talk 0 [true] []) = .next t ∧ t.ioWait = none) ∧
    (∃ t, exec .inputValue (talk 1 [] [eof]) = .next t ∧ t.ioWait = none) ∧
    (∃ t, exec .inputValue (talk 1 [] [noAnswer]) = .next t ∧ t.ioWait ≠ none) ∧
    (∃ t, exec .noOp (talk 0 [] []) = .next t) ∧
    ((waiting .out [true] []).ioWait = some .out ∧ ∃ t, step (waiting .out [true] []) = .next t ∧ t.ioWait = none) ∧
    ((waiting .inp [] [eof]).ioWait = some .inp ∧ ∃ t, step (waiting .inp [] [eof]) = .next t ∧ t.ioWait = none) ∧
    ∃ t, step (waiting .inp [] [noAnswer]) = .next t ∧ t.ioWait ≠ none :=
  ⟨⟨_, rfl, by decide⟩, ⟨_, rfl, by decide⟩, ⟨_, rfl, by decide⟩, ⟨_, rfl⟩, ⟨by decide, _, rfl, by decide⟩,
    ⟨by decide, _, rfl, by decide⟩, ⟨_, rfl, by decide⟩⟩
/-- The cell zero, and the cell 0x10 with its low Nybble zero. -/
theorem witness_JumpForwardEffect : (loop 1 0).dp < (loop 1 0).params.tapeLen ∧ (loop 1 0).memRead (loop 1 0).dp = 0 ∧
    (loop 1 0).program.target (loop 1 0).pc = some 3 ∧ (loop 1 0x10).dp < (loop 1 0x10).params.tapeLen ∧
    (loop 1 0x10).memRead (loop 1 0x10).dp ≠ 0 := by decide
theorem witness_JumpBackwardEffect : (loop 3 0x10).dp < (loop 3 0x10).params.tapeLen ∧
    (loop 3 0x10).memRead (loop 3 0x10).dp ≠ 0 ∧ (loop 3 0x10).program.target (loop 3 0x10).pc = some 1 ∧
    (loop 3 0).dp < (loop 3 0).params.tapeLen ∧ (loop 3 0).memRead (loop 3 0).dp = 0 := by decide
theorem witness_LoopGoesRoundAgain : (loop 3 5).Inv ∧ (loop 3 5).ioWait = none ∧
    (loop 3 5).program.imem[(loop 3 5).pc]? = some .jumpBackward ∧ (loop 3 5).memRead (loop 3 5).dp ≠ 0 :=
  ⟨loop_back_inv, by decide, by decide, by decide⟩
theorem witness_RegisterInstructionsFrame :
    (∃ t, exec .incrementPointer (machine 2 [0] 0 0) = .next t) ∧ (∃ t, exec .decrementPointer (machine 2 [1] 0 1) = .next t) ∧
    (∃ t, exec .jumpForward (loop 1 0) = .next t) ∧ (∃ t, exec .jumpBackward (loop 3 5) = .next t) ∧
    ∃ t, exec .noOp (loop 0 0) = .next t := ⟨⟨_, rfl⟩, ⟨_, rfl⟩, ⟨_, rfl⟩, ⟨_, rfl⟩, ⟨_, rfl⟩⟩
theorem witness_StoringAndIoFrame :
    (∃ t, exec .incrementValue (loop 0 255) = .next t) ∧ (∃ t, exec .decrementValue (loop 2 0) = .next t) ∧
    (∃ t, exec .outputValue (talk 0 [true] []) = .next t) ∧ (∃ t, exec .inputValue (talk 1 [] [byte 9]) = .next t) ∧
    ∃ t, exec .inputValue (talk 1 [] [noAnswer]) = .next t ∧ t.ioWait ≠ none :=
  ⟨⟨_, rfl⟩, ⟨_, rfl⟩, ⟨_, rfl⟩, ⟨_, rfl⟩, ⟨_, rfl, by decide⟩⟩
/-- Two tapes that differ at cell 0 and agree at the current cell 1. -/
theorem witness_OnlyCurrentCellIsSeen : Memory.read [(0, 9), (1, 5)] (loop 0 5).dp = (loop 0 5).tape.read (loop 0 5).dp ∧
    (∃ t, exec .incrementValue (loop 0 5) = .next t) ∧ Memory.wf [(0, 9), (1, 5)] ∧ (loop 0 5).tape.wf :=
  ⟨by decide, ⟨_, rfl⟩, by decide, by decide⟩
theorem witness_RecordedEventsAreNotRead : ∃ t, step (talk 0 [true] []) = .next t := ⟨_, rfl⟩
theorem witness_InvariantAtReset : ∃ s, constructMachine { tapeLen := 1, imemCap := some 0 } .fresh = .ok s := ⟨_, rfl⟩
theorem witness_StepKeepsInvariant : (loop 1 5).Inv ∧ (∃ t, step (loop 1 5) = .next t) ∧
    (waiting .inp [] [noAnswer]).Inv ∧ ∃ t, step (waiting .inp [] [noAnswer]) = .next t :=
  ⟨loop_inv, ⟨_, rfl⟩, waiting_inp_inv, ⟨_, rfl⟩⟩
theorem witness_ReachableStatesKeepInvariant : (loop 1 5).Inv ∧
    Reaches (loop 1 5) ((loop 1 5).command (.load [4])).1 := ⟨loop_inv, .command _ (.refl _)⟩
theorem witness_OnlyPointerMovesStop : (loop 1 5).Inv ∧ (machine 2 [0, 0] 1 1).Inv := ⟨loop_inv, atFault_inv⟩
/-- `dp` at the last cell, `pc` at `plen`, a store bounded at nine. -/
theorem witness_CounterWidthsSuffice : (loop 4 0).Inv ∧ (loop 4 0).params.pcWidth = some 4 := ⟨loop_end_inv, by decide⟩

end Sys2Proof.Tests
end

section
/-! InputValue at end of input (45_io.md R195, decision D9): the transfer completes and stores nothing. -/

namespace Sys2Proof.Machine

theorem exec_inputValue (s : State) : exec .inputValue s = inputTransfer s := rfl

/-- End of input at this moment of the transfer: it completes and nothing is stored (R195). -/
theorem inputTransfer_eof {s : State} (hd : s.dp < s.params.tapeLen) (ha : s.env.inPinsNow.answer = some none) :
    inputTransfer s = .next ((s.setEnv s.env.nextIn).completeIo (.inp none)) := by
  unfold inputTransfer
  rw [atCell_of_lt hd, State.requestInput_eof ha]

/-- Where nothing was pending, completion is the event and the advance of `pc` alone. -/
theorem State.completeIo_of_idle {s : State} (hw : s.ioWait = none) (x : IoEvent) :
    s.completeIo x = { s with pc := s.pc + 1, env := s.env.record x } := by
  cases s
  cases hw
  rfl

/-- Settles O41: on these wires the answer is end of input, and the transfer completes at its dispatch. -/
theorem inputValueAtEndOfInput : Obligations.InputValueAtEndOfInput := by
  unfold Obligations.InputValueAtEndOfInput
  intro s hd hw hv he
  rw [exec_inputValue, inputTransfer_eof hd (InPins.answer_eof hv he),
    State.completeIo_of_idle (s := s.setEnv s.env.nextIn) hw]
  rfl

end Sys2Proof.Machine
end

section
/-! The jump table of a constructed Program (10_state.md R29): an invariant of the scan says that every entry pairs a `[`
with its `]`, and that the stack holds the brackets still open, with balanced text between them. -/

namespace Sys2Proof

/-- The instructions at the indices from `a` to below `b`. -/
def segment (is : List Instr) (a b : Nat) : List Instr := (is.drop a).take (b - a)

theorem segment_self (is : List Instr) (a : Nat) : segment is a a = [] := by
  simp [segment]

theorem segment_append (is : List Instr) {a b c : Nat} (hab : a ≤ b) (hbc : b ≤ c) :
    segment is a b ++ segment is b c = segment is a c := by
  have hc : c - a = (b - a) + (c - b) := by omega
  rw [segment, segment, segment, hc, List.take_add, List.drop_drop, Nat.add_sub_cancel' hab]

theorem segment_single {is : List Instr} {k : Nat} {i : Instr} (h : is[k]? = some i) : segment is k (k + 1) = [i] := by
  obtain ⟨hk, rfl⟩ := List.getElem?_eq_some_iff.1 h
  rw [segment, List.drop_eq_getElem_cons hk, Nat.add_sub_cancel_left]
  rfl

theorem balanced_append {is js : List Instr} (hi : balanced is = true) (hj : balanced js = true) :
    balanced (is ++ js) = true :=
  (balancedFrom_append (d := 0) (e := 0) hi).trans hj

theorem balanced_single {i : Instr} (hf : i ≠ .jumpForward) (hb : i ≠ .jumpBackward) : balanced [i] = true :=
  balancedFrom_other hf hb 0 []

/-- A balanced text in brackets is balanced. -/
theorem balanced_bracket {is : List Instr} (h : balanced is = true) :
    balanced ([.jumpForward] ++ (is ++ [.jumpBackward])) = true := by
  rw [balanced, List.singleton_append, balancedFrom_open]
  exact (balancedFrom_append (d := 0) (e := 1) h).trans rfl

/-- The `[` at `i` and the `]` at `j` are each other's counterpart (R29): the text between them is balanced. -/
structure Matched (is : List Instr) (i j : Nat) : Prop where
  opens : is[i]? = some .jumpForward
  closes : is[j]? = some .jumpBackward
  lt : i < j
  body : balanced (segment is (i + 1) j) = true

theorem Matched.balanced_segment {is : List Instr} {i j : Nat} (h : Matched is i j) :
    balanced (segment is i (j + 1)) = true := by
  have hlt := h.lt
  rw [← segment_append is (Nat.le_succ i) (by omega : i + 1 ≤ j + 1), ← segment_append is hlt (Nat.le_succ j),
    segment_single h.opens, segment_single h.closes]
  exact balanced_bracket h.body

/-- Before index `k` exactly the `[` on the stack are open, latest first: the text between two of them, before the first
and after the last is balanced (R34). -/
def OpenBefore (is : List Instr) : Nat → List Nat → Prop
  | k, [] => balanced (segment is 0 k) = true
  | k, j :: st => j < k ∧ is[j]? = some .jumpForward ∧ balanced (segment is (j + 1) k) = true ∧ OpenBefore is j st

/-- Balanced text opens and closes nothing. -/
theorem OpenBefore.extend {is : List Instr} {k l : Nat} {st : List Nat} (h : OpenBefore is k st) (hkl : k ≤ l)
    (hs : balanced (segment is k l) = true) : OpenBefore is l st := by
  cases st with
  | nil =>
    rw [OpenBefore, ← segment_append is (Nat.zero_le k) hkl]
    exact balanced_append h hs
  | cons j st =>
    obtain ⟨hjk, hj, hb, hst⟩ := h
    refine ⟨by omega, hj, ?_, hst⟩
    rw [← segment_append is hjk hkl]
    exact balanced_append hb hs

/-- Every pending index lies below the scan. -/
theorem OpenBefore.lt {is : List Instr} {k p : Nat} {st : List Nat} (h : OpenBefore is k st) (hp : p ∈ st) : p < k := by
  induction st generalizing k with
  | nil => cases hp
  | cons j st ih =>
    obtain ⟨hjk, -, -, hst⟩ := h
    rcases List.mem_cons.1 hp with rfl | hp
    · exact hjk
    · exact (ih hst hp).trans hjk

end Sys2Proof

namespace Sys2Proof.Machine

/-- The entry of a jump table at an index, none past its end. -/
def entry (jt : List (Option Nat)) (p : Nat) : Option Nat := jt[p]?.join

theorem Program.target_eq_entry (P : Program) (p : Nat) : P.target p = entry P.jt p := by
  unfold Program.target entry
  cases P.jt[p]? <;> rfl

theorem entry_append (jt : List (Option Nat)) (e : Option Nat) (p : Nat) :
    entry (jt ++ [e]) p = if p = jt.length then e else entry jt p := by
  unfold entry
  split
  · next h => subst h; simp
  · next h =>
    rcases Nat.lt_or_ge p jt.length with hp | hp
    · rw [List.getElem?_append_left hp]
    · rw [List.getElem?_eq_none (by simp; omega), List.getElem?_eq_none hp]

theorem entry_set {jt : List (Option Nat)} {j : Nat} (hj : j < jt.length) (e : Option Nat) (p : Nat) :
    entry (jt.set j e) p = if p = j then e else entry jt p := by
  unfold entry
  split
  · next h => subst h; simp [hj]
  · next h => rw [List.getElem?_set_ne (Ne.symm h)]

theorem entry_length (jt : List (Option Nat)) : entry jt jt.length = none := by
  simp [entry]

/-- What holds of the scan before index `k`: the pending `[` are the open ones and have no entry yet, every entry is
mutual and belongs to a matching pair, and a jump without an entry is pending. -/
structure ScanInv (is : List Instr) (k : Nat) (sc : Scan) : Prop where
  jt_length : sc.jt.length = k
  pending : OpenBefore is k sc.stack
  pending_none : ∀ p ∈ sc.stack, entry sc.jt p = none
  paired : ∀ p q, entry sc.jt p = some q → (Matched is p q ∨ Matched is q p) ∧ entry sc.jt q = some p
  missing : ∀ p < k, entry sc.jt p = none → p ∈ sc.stack ∨ (is[p]? ≠ some .jumpForward ∧ is[p]? ≠ some .jumpBackward)

theorem ScanInv.start (is : List Instr) : ScanInv is 0 { stack := [], jt := [] } :=
  ⟨rfl, by rw [OpenBefore, segment_self]; rfl, nofun, nofun, nofun⟩

/-- An index that gets no entry leaves every entry as it was: it is a `[`, pending now, or no jump. -/
theorem ScanInv.skip {is : List Instr} {k : Nat} {sc : Scan} {st : List Nat} (h : ScanInv is k sc)
    (hopen : OpenBefore is (k + 1) st) (hst : ∀ p, p ∈ st → p = k ∨ p ∈ sc.stack) (hsub : ∀ p ∈ sc.stack, p ∈ st)
    (hk : k ∈ st ∨ (is[k]? ≠ some .jumpForward ∧ is[k]? ≠ some .jumpBackward)) :
    ScanInv is (k + 1) { stack := st, jt := sc.jt ++ [none] } := by
  obtain ⟨hlen, -, hnone, hpair, hmiss⟩ := h
  have hentry : ∀ p, entry (sc.jt ++ [none]) p = entry sc.jt p := fun p => by
    rw [entry_append]
    split
    · next hp => rw [hp, entry_length]
    · rfl
  refine ⟨by simp [hlen], hopen, fun p hp => ?_, fun p q hpq => ?_, fun p hp he => ?_⟩
  · rw [hentry]
    rcases hst p hp with rfl | hp
    · rw [← hlen, entry_length]
    · exact hnone p hp
  · rw [hentry] at hpq ⊢
    exact hpair p q hpq
  · rw [hentry] at he
    rcases Nat.lt_succ_iff_lt_or_eq.1 hp with hp | rfl
    · exact (hmiss p hp he).imp (hsub p) id
    · exact hk

/-- A `]` gets its entry, and so does the latest pending `[`. -/
theorem ScanInv.close {is : List Instr} {k j : Nat} {sc : Scan} {rest : List Nat} (h : ScanInv is k sc)
    (hs : sc.stack = j :: rest) (hk : is[k]? = some .jumpBackward) :
    ScanInv is (k + 1) { stack := rest, jt := sc.jt.set j (some k) ++ [some j] } := by
  obtain ⟨hlen, hopen, hnone, hpair, hmiss⟩ := h
  rw [hs] at hopen hnone hmiss
  obtain ⟨hjk, hj, hbody, hrest⟩ := hopen
  have hmatched : Matched is j k := ⟨hj, hk, hjk, hbody⟩
  have hentry : ∀ p, entry (sc.jt.set j (some k) ++ [some j]) p =
      if p = k then some j else if p = j then some k else entry sc.jt p := fun p => by
    rw [entry_append, entry_set (by omega), List.length_set, hlen]
  have hkNone : entry sc.jt k = none := by rw [← hlen, entry_length]
  have hjNone : entry sc.jt j = none := hnone j (by simp)
  refine ⟨by simp [hlen], hrest.extend (by omega) hmatched.balanced_segment, fun p hp => ?_, fun p q hpq => ?_,
    fun p hp he => ?_⟩
  · have hpj : p < j := hrest.lt hp
    rw [hentry, if_neg (by omega), if_neg (by omega)]
    exact hnone p (by simp [hp])
  · rw [hentry] at hpq
    split at hpq
    · next hp =>
      cases hpq
      subst hp
      exact ⟨.inr hmatched, by rw [hentry, if_neg (by omega), if_pos rfl]⟩
    · split at hpq
      · next hp =>
        cases hpq
        subst hp
        exact ⟨.inl hmatched, by rw [hentry, if_pos rfl]⟩
      · obtain ⟨hm, hq⟩ := hpair p q hpq
        have hqk : q ≠ k := fun e => by rw [e, hkNone] at hq; cases hq
        have hqj : q ≠ j := fun e => by rw [e, hjNone] at hq; cases hq
        exact ⟨hm, by rw [hentry, if_neg hqk, if_neg hqj, hq]⟩
  · rw [hentry] at he
    split at he
    · cases he
    · split at he
      · cases he
      · next hpk hpj =>
        exact (hmiss p (by omega) he).imp (fun hm => (List.mem_cons.1 hm).resolve_left hpj) id

/-- One step of the scan keeps its invariant. -/
theorem ScanInv.step {is : List Instr} {k : Nat} {i : Instr} {sc sc' : Scan} (h : ScanInv is k sc) (hi : is[k]? = some i)
    (hs : scanStep k i sc = .ok sc') : ScanInv is (k + 1) sc' := by
  by_cases hf : i = .jumpForward
  · subst hf
    cases (scanStep_open k sc).symm.trans hs
    refine h.skip ⟨Nat.lt_succ_self k, hi, by rw [segment_self]; rfl, h.pending⟩ (fun p hp => List.mem_cons.1 hp)
      (fun p hp => List.mem_cons_of_mem k hp) (.inl (by simp))
  · by_cases hb : i = .jumpBackward
    · subst hb
      cases hst : sc.stack with
      | nil => cases (scanStep_close_nil hst).symm.trans hs
      | cons j rest =>
        cases (scanStep_close_cons hst).symm.trans hs
        exact h.close hst hi
    · cases (scanStep_other hf hb k sc).symm.trans hs
      have hseg : balanced (segment is k (k + 1)) = true := by
        rw [segment_single hi]
        exact balanced_single hf hb
      exact h.skip (h.pending.extend (Nat.le_succ k) hseg) (fun p hp => .inr hp) (fun p hp => hp)
        (.inr (by simp [hi, hf, hb]))

/-- The scan of what follows index `k` keeps the invariant up to the end. -/
theorem ScanInv.scan {is rest : List Instr} {k : Nat} {sc sc' : Scan} (h : ScanInv is k sc) (hrest : is.drop k = rest)
    (hk : k ≤ is.length) (hs : scan k rest sc = .ok sc') : ScanInv is is.length sc' := by
  induction rest generalizing k sc with
  | nil =>
    have hlen : k = is.length := Nat.le_antisymm hk (List.drop_eq_nil_iff.1 hrest)
    cases hs
    exact hlen ▸ h
  | cons i rest ih =>
    have hi : is[k]? = some i := by rw [← List.head?_drop, hrest]; rfl
    have hlt : k < is.length := (List.getElem?_eq_some_iff.1 hi).1
    cases hsc : scanStep k i sc with
    | error e => cases (scan_cons_error hsc).symm.trans hs
    | ok sc₁ =>
      rw [scan_cons_ok hsc] at hs
      exact ih (h.step hi hsc) (by rw [← List.tail_drop, hrest]; rfl) hlt hs

theorem buildProgram_scanInv {is : List Instr} {P : Program} (h : buildProgram is = .ok P) :
    ScanInv is is.length { stack := [], jt := P.jt } :=
  (ScanInv.start is).scan rfl (Nat.zero_le _) (buildProgram_ok h).2

/-- Every entry of a constructed Program pairs two brackets, each the entry of the other. -/
theorem target_matched {is : List Instr} {P : Program} (h : buildProgram is = .ok P) {p q : Nat}
    (hpq : P.target p = some q) : (Matched is p q ∨ Matched is q p) ∧ P.target q = some p := by
  rw [Program.target_eq_entry] at hpq ⊢
  exact (buildProgram_scanInv h).paired p q hpq

/-- The jump table is complete: it has an entry at every jump. -/
theorem target_isSome_of_jump {is : List Instr} {P : Program} (h : buildProgram is = .ok P) {p : Nat}
    (hp : is[p]? = some .jumpForward ∨ is[p]? = some .jumpBackward) : ∃ q, P.target p = some q := by
  have hlt : p < is.length := by
    rcases hp with hp | hp <;> exact (List.getElem?_eq_some_iff.1 hp).1
  refine Option.ne_none_iff_exists'.1 fun hnone => ?_
  rw [Program.target_eq_entry] at hnone
  rcases (buildProgram_scanInv h).missing p hlt hnone with hmem | ⟨hf, hb⟩
  · cases hmem
  · exact hp.elim hf hb

/-- Settles O14: the five clauses read off the scan's invariant at the end, where nothing is pending. -/
theorem jumpTablePairsBrackets : Obligations.JumpTablePairsBrackets := by
  unfold Obligations.JumpTablePairsBrackets
  intro is P h
  refine ⟨(buildProgram_ok h).1, fun p => ⟨fun ⟨q, hq⟩ => ?_, target_isSome_of_jump h⟩, fun i j hi hij => ?_,
    fun j i hj hji => ?_, fun p q hpq => (target_matched h hpq).2⟩
  · exact (target_matched h hq).1.imp Matched.opens Matched.closes
  · rcases (target_matched h hij).1 with hm | hm
    · exact ⟨hm.closes, hm.lt, hm.body⟩
    · cases hi.symm.trans hm.closes
  · rcases (target_matched h hji).1 with hm | hm
    · cases hj.symm.trans hm.opens
    · exact ⟨hm.opens, hm.lt⟩

end Sys2Proof.Machine
end

section
/-! What one instruction and one transition can do: `ExecNext` decides the next state of `exec`, a transition executes one
instruction or none, and the effect on each piece of the state is read off once. -/

namespace Sys2Proof.Machine

/-! ## `ExecNext` is exact -/

theorem updateCell_of_lt {s : State} (hd : s.dp < s.params.tapeLen) (f : Byte → Byte) :
    updateCell f s = .next (s.memWrite s.dp (f (s.memRead s.dp))).advance := atCell_of_lt hd _

theorem outputTransfer_of_lt {s : State} (hd : s.dp < s.params.tapeLen) :
    outputTransfer s = .next (s.offerOutput (s.memRead s.dp)) := atCell_of_lt hd _

theorem inputTransfer_of_lt {s : State} (hd : s.dp < s.params.tapeLen) : inputTransfer s = .next s.requestInput :=
  atCell_of_lt hd _

theorem execJumpForward_of_lt {s : State} (hd : s.dp < s.params.tapeLen) : execJumpForward s =
    if s.cellIsZero = true then atTarget s fun q => .next (s.setPc (q + 1)) else .next s.advance := atCell_of_lt hd _

theorem execJumpBackward_of_lt {s : State} (hd : s.dp < s.params.tapeLen) : execJumpBackward s =
    if s.cellIsZero = true then .next s.advance else atTarget s fun q => .next (s.setPc q) := atCell_of_lt hd _

theorem exec_incrementPointer_atEnd {s : State} (h : s.params.tapeLen ≤ s.dp + 1) :
    exec .incrementPointer s = .fault .pointerOutOfBounds := if_pos h

theorem exec_decrementPointer_atStart {s : State} (h : s.dp = 0) :
    exec .decrementPointer s = .fault .pointerOutOfBounds := if_pos h

/-- The converse of `exec_next`: what `ExecNext` describes is executed. -/
theorem ExecNext.exec_eq {i : Instr} {s t : State} (h : ExecNext i s t) : exec i s = .next t := by
  cases i with
  | incrementPointer =>
    obtain ⟨hd, rfl⟩ := h
    exact if_neg (Nat.not_le.2 hd)
  | decrementPointer =>
    obtain ⟨hd, rfl⟩ := h
    exact if_neg hd
  | incrementValue =>
    obtain ⟨hd, rfl⟩ := h
    exact updateCell_of_lt hd _
  | decrementValue =>
    obtain ⟨hd, rfl⟩ := h
    exact updateCell_of_lt hd _
  | outputValue =>
    obtain ⟨hd, ⟨hr, rfl⟩ | ⟨hr, rfl⟩⟩ := h
    · exact (outputTransfer_of_lt hd).trans (by rw [State.offerOutput_ready hr])
    · exact (outputTransfer_of_lt hd).trans (by rw [State.offerOutput_waiting hr])
  | inputValue =>
    obtain ⟨hd, ⟨ha, rfl⟩ | ⟨ha, rfl⟩ | ⟨b, ha, rfl⟩⟩ := h
    · exact (inputTransfer_of_lt hd).trans (by rw [State.requestInput_waiting ha])
    · exact (inputTransfer_of_lt hd).trans (by rw [State.requestInput_eof ha])
    · exact (inputTransfer_of_lt hd).trans (by rw [State.requestInput_byte ha])
  | jumpForward =>
    obtain ⟨hd, ⟨hz, q, hq, rfl⟩ | ⟨hz, rfl⟩⟩ := h
    · exact (execJumpForward_of_lt hd).trans (by rw [if_pos hz, atTarget_of_some hq])
    · exact (execJumpForward_of_lt hd).trans (if_neg (by simp [hz]))
  | jumpBackward =>
    obtain ⟨hd, ⟨hz, rfl⟩ | ⟨hz, q, hq, rfl⟩⟩ := h
    · exact (execJumpBackward_of_lt hd).trans (if_pos hz)
    · exact (execJumpBackward_of_lt hd).trans (by rw [if_neg (by simp [hz]), atTarget_of_some hq])
  | noOp =>
    cases h
    rfl

/-! ## A transition executes one instruction or none -/

/-- The instruction the next transition executes a moment of: the suspended one, else the fetched one, and none in
Halted (R152, R156). -/
def State.current (s : State) : Option Instr :=
  match s.ioWait with
  | some .out => some .outputValue
  | some .inp => some .inputValue
  | none => if s.pc = s.plen then none else some (s.program.fetch s.pc)

theorem step_of_current {s : State} {i : Instr} (h : s.current = some i) : step s = exec i s := by
  unfold State.current at h
  split at h
  · next hw => cases h; exact step_suspendedOut hw
  · next hw => cases h; exact step_suspendedInp hw
  · next hw =>
    split at h
    · cases h
    · next hp => cases h; exact step_fetched hw hp

theorem step_of_current_none {s : State} (h : s.current = none) : step s = .next s := by
  unfold State.current at h
  split at h
  · cases h
  · cases h
  · next hw =>
    split at h
    · next hp => exact step_atEnd hw hp
    · cases h

/-- A transition leaves a Halted machine as it is, or executes the current instruction. -/
theorem step_next_current {s t : State} (h : step s = .next t) :
    (s.current = none ∧ t = s) ∨ ∃ i, s.current = some i ∧ ExecNext i s t := by
  cases hc : s.current with
  | none =>
    rw [step_of_current_none hc] at h
    cases h
    exact .inl ⟨rfl, rfl⟩
  | some i =>
    rw [step_of_current hc] at h
    exact .inr ⟨i, rfl, exec_next h⟩

/-- With nothing suspended, the instruction at `pc` is the current one. -/
theorem State.current_of_get {s : State} {i : Instr} (hw : s.ioWait = none) (hi : s.program.imem[s.pc]? = some i) :
    s.current = some i := by
  have hp : s.pc ≠ s.plen := Nat.ne_of_lt (List.getElem?_eq_some_iff.1 hi).1
  simp only [State.current, hw, if_neg hp, Program.fetch_of_get hi]

/-! ## The effect on each piece of the state -/

/-- What an instruction may do to each piece of the state: parameters and Program stay, `dp` moves by one at most and
within the tape, the tape changes at `dp` only, and `pc` goes to the next index or to a jump's target, but for an I/O
instruction that suspends. -/
structure ExecEffect (i : Instr) (s t : State) : Prop where
  params : t.params = s.params
  program : t.program = s.program
  dp : t.dp = s.dp ∨ (t.dp = s.dp + 1 ∧ t.dp < s.params.tapeLen) ∨ t.dp + 1 = s.dp
  tape : t.tape = s.tape ∨ (s.dp < s.params.tapeLen ∧ ∃ v, t.tape = s.tape.write s.dp v)
  pc : t.pc = s.pc ∨ t.pc = s.pc + 1 ∨ ∃ q, s.program.target s.pc = some q ∧ (t.pc = q ∨ t.pc = q + 1)
  ioWait : t.ioWait = none ∨
    (t.pc = s.pc ∧ (i = .outputValue ∧ t.ioWait = some .out ∨ i = .inputValue ∧ t.ioWait = some .inp)) ∨
    (i ≠ .outputValue ∧ i ≠ .inputValue ∧ t.ioWait = s.ioWait)

theorem ExecNext.effect {i : Instr} {s t : State} (h : ExecNext i s t) : ExecEffect i s t := by
  cases i with
  | incrementPointer =>
    obtain ⟨hd, rfl⟩ := h
    exact ⟨rfl, rfl, .inr (.inl ⟨rfl, hd⟩), .inl rfl, .inr (.inl rfl), .inr (.inr ⟨nofun, nofun, rfl⟩)⟩
  | decrementPointer =>
    obtain ⟨hd, rfl⟩ := h
    exact ⟨rfl, rfl, .inr (.inr (Nat.sub_add_cancel (Nat.pos_of_ne_zero hd))), .inl rfl, .inr (.inl rfl),
      .inr (.inr ⟨nofun, nofun, rfl⟩)⟩
  | incrementValue =>
    obtain ⟨hd, rfl⟩ := h
    exact ⟨rfl, rfl, .inl rfl, .inr ⟨hd, _, rfl⟩, .inr (.inl rfl), .inr (.inr ⟨nofun, nofun, rfl⟩)⟩
  | decrementValue =>
    obtain ⟨hd, rfl⟩ := h
    exact ⟨rfl, rfl, .inl rfl, .inr ⟨hd, _, rfl⟩, .inr (.inl rfl), .inr (.inr ⟨nofun, nofun, rfl⟩)⟩
  | outputValue =>
    obtain ⟨hd, ⟨-, rfl⟩ | ⟨-, rfl⟩⟩ := h
    · exact ⟨rfl, rfl, .inl rfl, .inl rfl, .inr (.inl rfl), .inl rfl⟩
    · exact ⟨rfl, rfl, .inl rfl, .inl rfl, .inl rfl, .inr (.inl ⟨rfl, .inl ⟨rfl, rfl⟩⟩)⟩
  | inputValue =>
    obtain ⟨hd, ⟨-, rfl⟩ | ⟨-, rfl⟩ | ⟨b, -, rfl⟩⟩ := h
    · exact ⟨rfl, rfl, .inl rfl, .inl rfl, .inl rfl, .inr (.inl ⟨rfl, .inr ⟨rfl, rfl⟩⟩)⟩
    · exact ⟨rfl, rfl, .inl rfl, .inl rfl, .inr (.inl rfl), .inl rfl⟩
    · exact ⟨rfl, rfl, .inl rfl, .inr ⟨hd, b, rfl⟩, .inr (.inl rfl), .inl rfl⟩
  | jumpForward =>
    obtain ⟨-, ⟨-, q, hq, rfl⟩ | ⟨-, rfl⟩⟩ := h
    · exact ⟨rfl, rfl, .inl rfl, .inl rfl, .inr (.inr ⟨q, hq, .inr rfl⟩), .inr (.inr ⟨nofun, nofun, rfl⟩)⟩
    · exact ⟨rfl, rfl, .inl rfl, .inl rfl, .inr (.inl rfl), .inr (.inr ⟨nofun, nofun, rfl⟩)⟩
  | jumpBackward =>
    obtain ⟨-, ⟨-, rfl⟩ | ⟨-, q, hq, rfl⟩⟩ := h
    · exact ⟨rfl, rfl, .inl rfl, .inl rfl, .inr (.inl rfl), .inr (.inr ⟨nofun, nofun, rfl⟩)⟩
    · exact ⟨rfl, rfl, .inl rfl, .inl rfl, .inr (.inr ⟨q, hq, .inl rfl⟩), .inr (.inr ⟨nofun, nofun, rfl⟩)⟩
  | noOp =>
    cases h
    exact ⟨rfl, rfl, .inl rfl, .inl rfl, .inr (.inl rfl), .inr (.inr ⟨nofun, nofun, rfl⟩)⟩

theorem ExecEffect.dp_lt {i : Instr} {s t : State} (h : ExecEffect i s t) (hd : s.dp < s.params.tapeLen) :
    t.dp < t.params.tapeLen := by
  rw [h.params]
  rcases h.dp with he | ⟨-, hlt⟩ | he <;> omega

theorem ExecEffect.tape_wf {i : Instr} {s t : State} (h : ExecEffect i s t) (hs : s.tape.wf) : t.tape.wf := by
  rcases h.tape with he | ⟨-, v, he⟩
  · rwa [he]
  · rw [he]
    exact Memory.write_wf hs s.dp v

theorem ExecEffect.tape_inRange {i : Instr} {s t : State} (h : ExecEffect i s t) (hs : s.tapeInRange) :
    t.tapeInRange := by
  unfold State.tapeInRange
  rw [h.params]
  rcases h.tape with he | ⟨hd, v, he⟩
  · rwa [he]
  · rw [he]
    exact Memory.write_inRange hs hd v

/-! ## Commands -/

theorem State.stepNow_fst (s : State) : s.stepNow.1 = s ∨ step s = .next s.stepNow.1 := by
  unfold State.stepNow
  split
  · next h => exact .inr h
  all_goals exact .inl rfl

/-- A STEP command leaves the state, or takes one transition. -/
theorem State.command_step_fst (s : State) : (s.command .step).1 = s ∨ step s = .next (s.command .step).1 := by
  cases hw : s.ioWait with
  | none => rw [State.command_step_idle hw]; exact s.stepNow_fst
  | some w => rw [State.command_step_busy hw]; exact .inl rfl

/-- A LOAD command leaves the state, or installs in an idle machine the Program constructed from its words, which fit. -/
theorem State.command_load_fst (s : State) (ws : List OpWord) : (s.command (.load ws)).1 = s ∨
    ∃ P, s.ioWait = none ∧ s.params.fits ws.length = true ∧ construct ws = .ok P ∧
      (s.command (.load ws)).1 = s.install P := by
  cases hw : s.ioWait with
  | some w => rw [State.command_load_busy hw]; exact .inl rfl
  | none =>
    rw [State.command_load_idle hw, State.load]
    split
    · next hf =>
      cases hc : construct ws with
      | error e => exact .inl rfl
      | ok P => exact .inr ⟨P, rfl, hf, rfl, rfl⟩
    · exact .inl rfl

end Sys2Proof.Machine
end

section
/-! The invariant of the machine (70_reset_and_hazards.md R255): it holds of a constructed machine, and every transition
and every host command keeps it. -/

namespace Sys2Proof.Machine

/-! ## Construction from words -/

theorem decodeWords_length {k : Nat} {ws : List OpWord} {is : List Instr} (h : decodeWords k ws = .ok is) :
    is.length = ws.length := by
  induction ws generalizing k is with
  | nil => cases h; rfl
  | cons w ws ih =>
    unfold decodeWords at h
    split at h
    · cases h
    · split at h
      · cases h
      · next hd => cases h; rw [List.length_cons, List.length_cons, ih hd]

theorem construct_plen {ws : List OpWord} {P : Program} (h : construct ws = .ok P) : P.plen = ws.length := by
  obtain ⟨is, hd, hb⟩ := construct_ok h
  rw [Program.plen, (buildProgram_ok hb).1, decodeWords_length hd]

theorem construct_wf {ws : List OpWord} {P : Program} (h : construct ws = .ok P) : P.wf := by
  obtain ⟨is, -, hb⟩ := construct_ok h
  rw [Program.wf, (buildProgram_ok hb).1, hb]

/-- A jump of a constructed Program has its target in the Program. -/
theorem Program.wf.target_lt {P : Program} (h : P.wf) {p q : Nat} (hq : P.target p = some q) : q < P.plen := by
  rcases (target_matched h hq).1 with hm | hm
  · exact (List.getElem?_eq_some_iff.1 hm.closes).1
  · exact (List.getElem?_eq_some_iff.1 hm.opens).1

/-! ## The suspended instruction -/

theorem State.waitMatches_of_none {s : State} (h : s.ioWait = none) : s.waitMatches := by
  simp only [State.waitMatches, h]

theorem State.waitMatches_out {s : State} (h : s.ioWait = some .out) :
    s.waitMatches ↔ s.program.imem[s.pc]? = some .outputValue := by
  simp only [State.waitMatches, h, Program.getInstruction]

theorem State.waitMatches_inp {s : State} (h : s.ioWait = some .inp) :
    s.waitMatches ↔ s.program.imem[s.pc]? = some .inputValue := by
  simp only [State.waitMatches, h, Program.getInstruction]

/-- A machine at another instruction than the two of I/O is not suspended. -/
theorem State.Inv.ioWait_none {s : State} {i : Instr} (h : s.Inv) (hi : s.program.imem[s.pc]? = some i)
    (ho : i ≠ .outputValue) (hn : i ≠ .inputValue) : s.ioWait = none := by
  match hw : s.ioWait with
  | none => rfl
  | some .out => exact absurd (Option.some.inj (hi.symm.trans ((State.waitMatches_out hw).1 h.wait_matches))) ho
  | some .inp => exact absurd (Option.some.inj (hi.symm.trans ((State.waitMatches_inp hw).1 h.wait_matches))) hn

/-- The current instruction is the one at `pc`. -/
theorem State.Inv.get_of_current {s : State} {i : Instr} (h : s.Inv) (hc : s.current = some i) :
    s.program.imem[s.pc]? = some i := by
  unfold State.current at hc
  split at hc
  · next hw => cases hc; exact (State.waitMatches_out hw).1 h.wait_matches
  · next hw => cases hc; exact (State.waitMatches_inp hw).1 h.wait_matches
  · split at hc
    · cases hc
    · next hp => cases hc; exact Program.get_of_lt (Nat.lt_of_le_of_ne h.pc_le hp)

/-! ## What keeps the invariant -/

theorem State.fresh_inv {p : Params} (hp : 1 ≤ p.tapeLen) (e : Env) : (State.fresh p e).Inv where
  tapeLen_pos := hp
  tape_wf := ⟨.nil, nofun⟩
  tape_inRange := nofun
  dp_lt := hp
  pc_le := Nat.le_refl 0
  program_wf := rfl
  program_fits := by
    unfold Params.fits
    split
    · rfl
    · exact decide_eq_true (Nat.zero_le _)
  wait_matches := trivial

theorem ExecEffect.pc_le {i : Instr} {s t : State} (he : ExecEffect i s t) (h : s.Inv)
    (hi : s.program.imem[s.pc]? = some i) : t.pc ≤ t.plen := by
  have hlt : s.pc < s.program.plen := (List.getElem?_eq_some_iff.1 hi).1
  rw [State.plen, he.program]
  rcases he.pc with hp | hp | ⟨q, hq, hp⟩
  · omega
  · omega
  · have := h.program_wf.target_lt hq
    omega

theorem ExecEffect.waitMatches {i : Instr} {s t : State} (he : ExecEffect i s t) (h : s.Inv)
    (hi : s.program.imem[s.pc]? = some i) : t.waitMatches := by
  rcases he.ioWait with hw | ⟨hp, ⟨rfl, hw⟩ | ⟨rfl, hw⟩⟩ | ⟨ho, hn, hw⟩
  · exact State.waitMatches_of_none hw
  · rw [State.waitMatches_out hw, he.program, hp, hi]
  · rw [State.waitMatches_inp hw, he.program, hp, hi]
  · exact State.waitMatches_of_none (hw.trans (h.ioWait_none hi ho hn))

/-- The instruction at `pc` keeps the invariant. -/
theorem ExecEffect.inv {i : Instr} {s t : State} (he : ExecEffect i s t) (h : s.Inv)
    (hi : s.program.imem[s.pc]? = some i) : t.Inv where
  tapeLen_pos := he.params ▸ h.tapeLen_pos
  tape_wf := he.tape_wf h.tape_wf
  tape_inRange := he.tape_inRange h.tape_inRange
  dp_lt := he.dp_lt h.dp_lt
  pc_le := he.pc_le h hi
  program_wf := he.program ▸ h.program_wf
  program_fits := by rw [State.plen, he.params, he.program]; exact h.program_fits
  wait_matches := he.waitMatches h hi

theorem step_inv {s t : State} (h : s.Inv) (hs : step s = .next t) : t.Inv := by
  rcases step_next_current hs with ⟨-, rfl⟩ | ⟨i, hc, he⟩
  · exact h
  · exact he.effect.inv h (h.get_of_current hc)

/-- LOAD installs a constructed Program that fits, in an idle machine. -/
theorem State.install_inv {s : State} {ws : List OpWord} {P : Program} (h : s.Inv) (hw : s.ioWait = none)
    (hf : s.params.fits ws.length = true) (hc : construct ws = .ok P) : (s.install P).Inv where
  tapeLen_pos := h.tapeLen_pos
  tape_wf := h.tape_wf
  tape_inRange := h.tape_inRange
  dp_lt := h.dp_lt
  pc_le := Nat.zero_le _
  program_wf := construct_wf hc
  program_fits := (congrArg s.params.fits (construct_plen hc)).trans hf
  wait_matches := State.waitMatches_of_none hw

theorem State.command_inv {s : State} (h : s.Inv) (c : Command) : (s.command c).1.Inv := by
  cases c with
  | reset => exact State.fresh_inv h.tapeLen_pos s.env
  | load ws =>
    rcases s.command_load_fst ws with he | ⟨P, hw, hf, hc, he⟩
    · rwa [he]
    · rw [he]
      exact State.install_inv h hw hf hc
  | step =>
    rcases s.command_step_fst with he | he
    · rwa [he]
    · exact step_inv h he

/-- Settles O57: a transition leaves a Halted machine or executes the instruction at `pc`, which keeps each clause. -/
theorem stepKeepsInvariant : Obligations.StepKeepsInvariant := by
  unfold Obligations.StepKeepsInvariant
  intro s t
  exact step_inv

/-- Settles O58, by induction on how the state is reached. -/
theorem reachableStatesKeepInvariant : Obligations.ReachableStatesKeepInvariant := by
  unfold Obligations.ReachableStatesKeepInvariant
  intro s t h hr
  induction hr with
  | refl => exact h
  | step _ hs ih => exact step_inv ih hs
  | command c _ ih => exact State.command_inv ih c

/-- Settles O56: a machine is constructed only with at least one cell, and reset is the construction at the default
size. -/
theorem invariantAtReset : Obligations.InvariantAtReset := by
  unfold Obligations.InvariantAtReset
  refine ⟨State.fresh_inv (by decide) .fresh, fun p e s h => ?_⟩
  unfold constructMachine at h
  split at h
  · cases h
  · next hp =>
    cases h
    exact State.fresh_inv (Nat.pos_of_ne_zero hp) e

/-! ## Counter widths -/

/-- The width of the spec's parameter table holds every value below `n` (D20). -/
theorem lt_two_pow_width {a n : Nat} (h : a < n) : a < 2 ^ max 1 (Nat.clog 2 n) :=
  calc a < n := h
    _ ≤ 2 ^ Nat.clog 2 n := Nat.le_pow_clog Nat.one_lt_two n
    _ ≤ 2 ^ max 1 (Nat.clog 2 n) := Nat.pow_le_pow_right Nat.two_pos (Nat.le_max_right _ _)

/-- Settles O60: `dp` is below `TAPE_LEN`, and `pc` at most `plen`, which is at most the capacity. -/
theorem counterWidthsSuffice : Obligations.CounterWidthsSuffice := by
  unfold Obligations.CounterWidthsSuffice
  intro s h
  refine ⟨lt_two_pow_width h.dp_lt, fun w hw => ?_⟩
  obtain ⟨cap, hcap, rfl⟩ := Option.map_eq_some_iff.1 hw
  have hfits := h.program_fits
  simp only [Params.fits, hcap, decide_eq_true_eq] at hfits
  exact lt_two_pow_width (Nat.lt_succ_of_le (h.pc_le.trans hfits))

end Sys2Proof.Machine
end

section
/-! The pieces of the state: their values at reset, what replaces the Program, the pointer's range, and what an instruction
sees of the tape and of the record of events. -/

namespace Sys2Proof.Machine

/-- Settles O19: the fresh machine at the default size. -/
theorem resetValues : Obligations.ResetValues := by
  unfold Obligations.ResetValues
  exact ⟨rfl, fun _ => rfl, rfl, rfl, rfl, rfl, fun _ => rfl, rfl, rfl⟩

/-! ## The Program and the pointer -/

/-- No transition replaces the Program (R26). -/
theorem step_program {s t : State} (h : step s = .next t) : t.program = s.program := by
  rcases step_next_current h with ⟨-, rfl⟩ | ⟨i, -, he⟩
  · rfl
  · exact he.effect.program

/-- Settles O22: the Program is a piece of state no instruction touches; LOAD and reset install it whole. -/
theorem programIsReadOnly : Obligations.ProgramIsReadOnly := by
  unfold Obligations.ProgramIsReadOnly
  refine ⟨fun is P h => (buildProgram_ok h).1, fun i s t h => (exec_next h).effect.program, fun s t => step_program,
    fun s => ?_, fun s => rfl, fun s ws => ?_⟩
  · rcases s.command_step_fst with he | he
    · rw [he]
    · exact step_program he
  · rcases s.command_load_fst ws with he | ⟨P, -, -, hc, he⟩
    · exact .inl (by rw [he])
    · exact .inr (by rw [he]; exact hc)

/-- A faulting STEP leaves the state (R224). -/
theorem State.command_step_of_fault {s : State} (h : step s = .fault .pointerOutOfBounds) :
    (s.command .step).1 = s := by
  rcases s.command_step_fst with he | he
  · exact he
  · cases h.symm.trans he

/-- Settles O36: the bound is checked before `dp` moves, by one, and outside it the step faults. -/
theorem pointerNeverLeavesRange : Obligations.PointerNeverLeavesRange := by
  unfold Obligations.PointerNeverLeavesRange
  refine ⟨fun s t hd h => ?_, fun s hw hi => ?_⟩
  · rcases step_next_current h with ⟨-, rfl⟩ | ⟨i, -, he⟩
    · exact ⟨hd, rfl, .inl rfl⟩
    · exact ⟨he.effect.dp_lt hd, he.effect.params, he.effect.dp.imp_right (Or.imp_left And.left)⟩
  · have hf : step s = .fault .pointerOutOfBounds := by
      rcases hi with ⟨hi, hd⟩ | ⟨hi, hd⟩
      · rw [step_of_current (State.current_of_get hw hi), exec_incrementPointer_atEnd hd.ge]
      · rw [step_of_current (State.current_of_get hw hi), exec_decrementPointer_atStart hd]
    exact ⟨hf, by rw [State.command_step_of_fault hf]⟩

/-! ## I/O that does not complete -/

/-- Settles O42: the machine is left suspended on the instruction's channel, and only a sample is past. -/
theorem ioInstructionsSuspend : Obligations.IoInstructionsSuspend := by
  unfold Obligations.IoInstructionsSuspend
  intro s hd
  refine ⟨fun hr => ⟨(s.setEnv s.env.nextOut).setIoWait (some .out), ?_, rfl, rfl, rfl, rfl, rfl, rfl⟩,
    fun hv => ⟨(s.setEnv s.env.nextIn).setIoWait (some .inp), ?_, rfl, rfl, rfl, rfl, rfl, rfl⟩⟩
  · exact ExecNext.exec_eq (i := .outputValue) ⟨hd, .inr ⟨hr, rfl⟩⟩
  · exact ExecNext.exec_eq (i := .inputValue) ⟨hd, .inl ⟨InPins.answer_eq_none.2 hv, rfl⟩⟩

/-! ## What of the tape an instruction sees -/

/-- An instruction leaves the tape, or writes a value at `dp`; on another tape with the same current cell it does the
same. -/
theorem ExecNext.onTape {i : Instr} {s t : State} {m : Memory} (h : ExecNext i s t)
    (hm : (s.setTape m).memRead s.dp = s.memRead s.dp) :
    ∃ w, ExecNext i (s.setTape m) (t.setTape w) ∧
      ((t.tape = s.tape ∧ w = m) ∨ ∃ v, t.tape = s.tape.write s.dp v ∧ w = m.write s.dp v) := by
  have hz : (s.setTape m).cellIsZero = s.cellIsZero := congrArg isZero8 hm
  cases i with
  | incrementPointer =>
    obtain ⟨hd, rfl⟩ := h
    exact ⟨m, ⟨hd, rfl⟩, .inl ⟨rfl, rfl⟩⟩
  | decrementPointer =>
    obtain ⟨hd, rfl⟩ := h
    exact ⟨m, ⟨hd, rfl⟩, .inl ⟨rfl, rfl⟩⟩
  | incrementValue =>
    obtain ⟨hd, rfl⟩ := h
    exact ⟨_, ⟨hd, by rw [State.setTape_dp, hm]; rfl⟩, .inr ⟨_, rfl, rfl⟩⟩
  | decrementValue =>
    obtain ⟨hd, rfl⟩ := h
    exact ⟨_, ⟨hd, by rw [State.setTape_dp, hm]; rfl⟩, .inr ⟨_, rfl, rfl⟩⟩
  | outputValue =>
    obtain ⟨hd, ⟨hr, rfl⟩ | ⟨hr, rfl⟩⟩ := h
    · exact ⟨m, ⟨hd, .inl ⟨hr, by rw [State.setTape_dp, hm]; rfl⟩⟩, .inl ⟨rfl, rfl⟩⟩
    · exact ⟨m, ⟨hd, .inr ⟨hr, rfl⟩⟩, .inl ⟨rfl, rfl⟩⟩
  | inputValue =>
    obtain ⟨hd, ⟨ha, rfl⟩ | ⟨ha, rfl⟩ | ⟨b, ha, rfl⟩⟩ := h
    · exact ⟨m, ⟨hd, .inl ⟨ha, rfl⟩⟩, .inl ⟨rfl, rfl⟩⟩
    · exact ⟨m, ⟨hd, .inr (.inl ⟨ha, rfl⟩)⟩, .inl ⟨rfl, rfl⟩⟩
    · exact ⟨_, ⟨hd, .inr (.inr ⟨b, ha, rfl⟩)⟩, .inr ⟨b, rfl, rfl⟩⟩
  | jumpForward =>
    obtain ⟨hd, ⟨h0, q, hq, rfl⟩ | ⟨h0, rfl⟩⟩ := h
    · exact ⟨m, ⟨hd, .inl ⟨hz.trans h0, q, hq, rfl⟩⟩, .inl ⟨rfl, rfl⟩⟩
    · exact ⟨m, ⟨hd, .inr ⟨hz.trans h0, rfl⟩⟩, .inl ⟨rfl, rfl⟩⟩
  | jumpBackward =>
    obtain ⟨hd, ⟨h0, rfl⟩ | ⟨h0, q, hq, rfl⟩⟩ := h
    · exact ⟨m, ⟨hd, .inl ⟨hz.trans h0, rfl⟩⟩, .inl ⟨rfl, rfl⟩⟩
    · exact ⟨m, ⟨hd, .inr ⟨hz.trans h0, q, hq, rfl⟩⟩, .inl ⟨rfl, rfl⟩⟩
  | noOp =>
    cases h
    exact ⟨m, rfl, .inl ⟨rfl, rfl⟩⟩

/-- Settles O54: the instruction runs on the other tape, and leaves it or writes the same value at `dp`. -/
theorem onlyCurrentCellIsSeen : Obligations.OnlyCurrentCellIsSeen := by
  unfold Obligations.OnlyCurrentCellIsSeen
  intro i s t m hm h
  obtain ⟨w, hw, hcases⟩ := (exec_next h).onTape (m := m) hm
  refine ⟨t.setTape w, hw.exec_eq, rfl, rfl, rfl, rfl, fun a ha => ?_, fun hmwf hswf => ?_⟩
  · rcases hcases with ⟨-, rfl⟩ | ⟨v, -, rfl⟩
    · rfl
    · exact Memory.read_write_other m ha v
  · change w.read s.dp = t.tape.read s.dp
    rcases hcases with ⟨ht, rfl⟩ | ⟨v, ht, rfl⟩
    · rw [ht, hm]
    · rw [ht, Memory.read_write_same hmwf, Memory.read_write_same hswf]

/-! ## What of the record an instruction sees -/

/-- The state with another record of events. -/
def State.withEvents (s : State) (ev : List IoEvent) : State := { s with env := { s.env with events := ev } }

/-- What records no event leaves any record as it is. -/
theorem ExecNext.onRecord_of_silent {i : Instr} {s t : State} {ev : List IoEvent} (he : t.env.events = s.env.events)
    (h : ExecNext i (s.withEvents ev) (t.withEvents ev)) :
    ∃ new, t.env.events = s.env.events ++ new ∧ ExecNext i (s.withEvents ev) (t.withEvents (ev ++ new)) :=
  ⟨[], by rw [he, List.append_nil], by rwa [List.append_nil]⟩

/-- An instruction adds events to the record, and on another record it does the same. -/
theorem ExecNext.onRecord {i : Instr} {s t : State} (h : ExecNext i s t) (ev : List IoEvent) :
    ∃ new, t.env.events = s.env.events ++ new ∧ ExecNext i (s.withEvents ev) (t.withEvents (ev ++ new)) := by
  cases i with
  | incrementPointer =>
    obtain ⟨hd, rfl⟩ := h
    exact onRecord_of_silent rfl ⟨hd, rfl⟩
  | decrementPointer =>
    obtain ⟨hd, rfl⟩ := h
    exact onRecord_of_silent rfl ⟨hd, rfl⟩
  | incrementValue =>
    obtain ⟨hd, rfl⟩ := h
    exact onRecord_of_silent rfl ⟨hd, rfl⟩
  | decrementValue =>
    obtain ⟨hd, rfl⟩ := h
    exact onRecord_of_silent rfl ⟨hd, rfl⟩
  | outputValue =>
    obtain ⟨hd, ⟨hr, rfl⟩ | ⟨hr, rfl⟩⟩ := h
    · exact ⟨_, rfl, hd, .inl ⟨hr, rfl⟩⟩
    · exact onRecord_of_silent rfl ⟨hd, .inr ⟨hr, rfl⟩⟩
  | inputValue =>
    obtain ⟨hd, ⟨ha, rfl⟩ | ⟨ha, rfl⟩ | ⟨b, ha, rfl⟩⟩ := h
    · exact onRecord_of_silent rfl ⟨hd, .inl ⟨ha, rfl⟩⟩
    · exact ⟨_, rfl, hd, .inr (.inl ⟨ha, rfl⟩)⟩
    · exact ⟨_, rfl, hd, .inr (.inr ⟨b, ha, rfl⟩)⟩
  | jumpForward =>
    obtain ⟨hd, ⟨h0, q, hq, rfl⟩ | ⟨h0, rfl⟩⟩ := h
    · exact onRecord_of_silent rfl ⟨hd, .inl ⟨h0, q, hq, rfl⟩⟩
    · exact onRecord_of_silent rfl ⟨hd, .inr ⟨h0, rfl⟩⟩
  | jumpBackward =>
    obtain ⟨hd, ⟨h0, rfl⟩ | ⟨h0, q, hq, rfl⟩⟩ := h
    · exact onRecord_of_silent rfl ⟨hd, .inl ⟨h0, rfl⟩⟩
    · exact onRecord_of_silent rfl ⟨hd, .inr ⟨h0, q, hq, rfl⟩⟩
  | noOp =>
    cases h
    exact onRecord_of_silent (i := .noOp) rfl rfl

/-- The record does not decide which instruction is current. -/
theorem State.withEvents_current (s : State) (ev : List IoEvent) : (s.withEvents ev).current = s.current := rfl

/-- Settles O55: a Halted machine adds nothing to the record, and an instruction adds the same to any. -/
theorem recordedEventsAreNotRead : Obligations.RecordedEventsAreNotRead := by
  unfold Obligations.RecordedEventsAreNotRead
  intro s t ev h
  change ∃ new, _ ∧ step (s.withEvents ev) = .next (t.withEvents (ev ++ new))
  rcases step_next_current h with ⟨hc, rfl⟩ | ⟨i, hc, he⟩
  · refine ⟨[], (List.append_nil _).symm, ?_⟩
    rw [List.append_nil, step_of_current_none ((State.withEvents_current t ev).trans hc)]
  · obtain ⟨new, hnew, hexec⟩ := he.onRecord ev
    exact ⟨new, hnew, (step_of_current ((State.withEvents_current s ev).trans hc)).trans hexec.exec_eq⟩

end Sys2Proof.Machine
end

section
/-! The frame of each instruction (20_memory.md R55, R62): which instructions leave `dp`, the tape, or the I/O side as
they were. -/

namespace Sys2Proof.Machine

/-- The pieces of state only some instructions change: `dp` the two pointer instructions, the tape the cell-value
instructions and an InputValue that completes, the I/O side the two I/O instructions. What a change can be is
`ExecEffect`. -/
structure ExecFrame (i : Instr) (s t : State) : Prop where
  dp : i ≠ .incrementPointer → i ≠ .decrementPointer → t.dp = s.dp
  tape : i ≠ .incrementValue → i ≠ .decrementValue → (i = .inputValue → t.ioWait ≠ none) → t.tape = s.tape
  io : i ≠ .outputValue → i ≠ .inputValue → t.ioWait = s.ioWait ∧ t.env = s.env

theorem ExecNext.frame {i : Instr} {s t : State} (h : ExecNext i s t) : ExecFrame i s t := by
  cases i with
  | incrementPointer =>
    obtain ⟨-, rfl⟩ := h
    exact ⟨fun hi => absurd rfl hi, fun _ _ _ => rfl, fun _ _ => ⟨rfl, rfl⟩⟩
  | decrementPointer =>
    obtain ⟨-, rfl⟩ := h
    exact ⟨fun _ hi => absurd rfl hi, fun _ _ _ => rfl, fun _ _ => ⟨rfl, rfl⟩⟩
  | incrementValue =>
    obtain ⟨-, rfl⟩ := h
    exact ⟨fun _ _ => rfl, fun hi => absurd rfl hi, fun _ _ => ⟨rfl, rfl⟩⟩
  | decrementValue =>
    obtain ⟨-, rfl⟩ := h
    exact ⟨fun _ _ => rfl, fun _ hi => absurd rfl hi, fun _ _ => ⟨rfl, rfl⟩⟩
  | outputValue =>
    obtain ⟨-, ⟨-, rfl⟩ | ⟨-, rfl⟩⟩ := h <;>
      exact ⟨fun _ _ => rfl, fun _ _ _ => rfl, fun hi => absurd rfl hi⟩
  | inputValue =>
    obtain ⟨-, ⟨-, rfl⟩ | ⟨-, rfl⟩ | ⟨b, -, rfl⟩⟩ := h
    · exact ⟨fun _ _ => rfl, fun _ _ _ => rfl, fun _ hi => absurd rfl hi⟩
    · exact ⟨fun _ _ => rfl, fun _ _ _ => rfl, fun _ hi => absurd rfl hi⟩
    · exact ⟨fun _ _ => rfl, fun _ _ hw => absurd rfl (hw rfl), fun _ hi => absurd rfl hi⟩
  | jumpForward =>
    obtain ⟨-, ⟨-, q, -, rfl⟩ | ⟨-, rfl⟩⟩ := h <;> exact ⟨fun _ _ => rfl, fun _ _ _ => rfl, fun _ _ => ⟨rfl, rfl⟩⟩
  | jumpBackward =>
    obtain ⟨-, ⟨-, rfl⟩ | ⟨-, q, -, rfl⟩⟩ := h <;> exact ⟨fun _ _ => rfl, fun _ _ _ => rfl, fun _ _ => ⟨rfl, rfl⟩⟩
  | noOp =>
    cases h
    exact ⟨fun _ _ => rfl, fun _ _ _ => rfl, fun _ _ => ⟨rfl, rfl⟩⟩

/-- Machines with the same tape read the same. -/
theorem State.memRead_of_tape_eq {s t : State} (h : t.tape = s.tape) (a : Nat) : t.memRead a = s.memRead a :=
  congrArg (Memory.read · a) h

/-- No instruction changes a byte but the one at `dp` (R51, R55). -/
theorem ExecEffect.memRead_other {i : Instr} {s t : State} (h : ExecEffect i s t) {a : Nat} (ha : a ≠ s.dp) :
    t.memRead a = s.memRead a := by
  rcases h.tape with he | ⟨-, v, he⟩
  · exact State.memRead_of_tape_eq he a
  · exact (congrArg (Memory.read · a) he).trans (Memory.read_write_other s.tape ha v)

/-- Settles O52: none of the five stores a byte or is an I/O instruction. -/
theorem registerInstructionsFrame : Obligations.RegisterInstructionsFrame := by
  unfold Obligations.RegisterInstructionsFrame
  intro i s t hi h
  have heffect := (exec_next h).effect
  have hframe := (exec_next h).frame
  have hin : i ≠ .inputValue := ne_of_mem_of_not_mem hi (by decide)
  have htape : t.tape = s.tape := hframe.tape (ne_of_mem_of_not_mem hi (by decide))
    (ne_of_mem_of_not_mem hi (by decide)) fun he => absurd he hin
  obtain ⟨hwait, henv⟩ := hframe.io (ne_of_mem_of_not_mem hi (by decide)) hin
  exact ⟨State.memRead_of_tape_eq htape, heffect.program, heffect.params, hwait, henv, hframe.dp⟩

/-- Settles O53: none of the four moves `dp`; OutputValue and a suspension store nothing, and the two cell-value
instructions do no I/O. -/
theorem storingAndIoFrame : Obligations.StoringAndIoFrame := by
  unfold Obligations.StoringAndIoFrame
  intro i s t hi h
  have heffect := (exec_next h).effect
  have hframe := (exec_next h).frame
  have hdp : t.dp = s.dp := hframe.dp (ne_of_mem_of_not_mem hi (by decide)) (ne_of_mem_of_not_mem hi (by decide))
  refine ⟨fun a => heffect.memRead_other, hdp, heffect.program, heffect.params, fun hio => ?_, fun hcell => ?_⟩
  · rcases hio with rfl | ⟨rfl, hw⟩
    · exact State.memRead_of_tape_eq (hframe.tape nofun nofun nofun)
    · exact State.memRead_of_tape_eq (hframe.tape nofun nofun fun _ => hw)
  · rcases hcell with rfl | rfl <;> exact hframe.io nofun nofun

end Sys2Proof.Machine
end

section
/-! Encoding (30_encoding.md R71, R75, R77): decode and encode agree, and the words of a balanced sequence construct to
exactly that sequence (41_program_jump_table.md R131). -/

namespace Sys2Proof

@[simp] theorem decode_encode (i : Instr) : decode (encode i) = .instr i := by
  cases i <;> rfl

/-- A word is the encoding of what it decodes to, or a spare word, `0x9` and above (R75). -/
theorem decode_cases (w : OpWord) :
    (w.toNat < 9 ∧ ∃ i, decode w = .instr i ∧ encode i = w) ∨ (9 ≤ w.toNat ∧ decode w = .invalid) := by
  unfold decode
  split
  case h_10 =>
    refine .inr ⟨?_, rfl⟩
    simp only [imp_false] at *
    omega
  all_goals next hw => exact .inl ⟨by omega, _, rfl, BitVec.eq_of_toNat_eq hw.symm⟩

theorem encode_of_decode {w : OpWord} {i : Instr} (h : decode w = .instr i) : encode i = w := by
  rcases decode_cases w with ⟨-, j, hj, he⟩ | ⟨-, hinv⟩
  · cases h.symm.trans hj
    exact he
  · cases h.symm.trans hinv

theorem OpWord.wf_iff {w : OpWord} : OpWord.wf w = true ↔ w.toNat < 9 := decide_eq_true_iff

/-- The words that decode are exactly the well-formed ones (R75, R77). -/
theorem exists_decode_iff_wf {w : OpWord} : (∃ i, decode w = .instr i) ↔ OpWord.wf w = true := by
  rw [OpWord.wf_iff]
  rcases decode_cases w with ⟨hlt, i, hi, -⟩ | ⟨hle, hinv⟩
  · exact iff_of_true ⟨i, hi⟩ hlt
  · exact iff_of_false (fun ⟨_, hi⟩ => nomatch hi.symm.trans hinv) (Nat.not_lt.2 hle)

end Sys2Proof

namespace Sys2Proof.Machine

theorem decodeWords_map_encode (k : Nat) (is : List Instr) : decodeWords k (is.map encode) = .ok is := by
  induction is generalizing k with
  | nil => rfl
  | cons i is ih => simp [decodeWords, ih]

/-- The scan ends with nothing pending exactly if the depth count, begun at the height of its stack, ends at 0. -/
theorem scan_ok_nil_iff_balancedFrom {is : List Instr} {k : Nat} {sc : Scan} :
    (∃ jt, scan k is sc = .ok { stack := [], jt := jt }) ↔ balancedFrom sc.stack.length is = true := by
  induction is generalizing k sc with
  | nil =>
    obtain ⟨st, jt⟩ := sc
    simp [scan]
  | cons i is ih =>
    by_cases hf : i = .jumpForward
    · subst hf
      rw [scan_cons_ok (scanStep_open k sc), ih, balancedFrom_open, List.length_cons]
    · by_cases hb : i = .jumpBackward
      · subst hb
        cases hs : sc.stack with
        | nil => simp [scan_cons_error (scanStep_close_nil hs)]
        | cons j rest =>
          rw [scan_cons_ok (scanStep_close_cons hs), ih, List.length_cons, balancedFrom_close_succ]
      · rw [scan_cons_ok (scanStep_other hf hb k sc), ih, balancedFrom_other hf hb]

/-- A scan that ends with nothing pending makes the Program (R131, step 3). -/
theorem buildProgram_of_scan {is : List Instr} {jt : List (Option Nat)}
    (h : scan 0 is { stack := [], jt := [] } = .ok { stack := [], jt := jt }) :
    buildProgram is = .ok { imem := is, jt := jt } := by
  simp [buildProgram, h, closeScan]

theorem buildProgram_of_balanced {is : List Instr} (h : balanced is = true) : ∃ P, buildProgram is = .ok P := by
  obtain ⟨jt, hs⟩ := scan_ok_nil_iff_balancedFrom (k := 0) (sc := { stack := [], jt := [] }).2 h
  exact ⟨_, buildProgram_of_scan hs⟩

theorem construct_map_encode (is : List Instr) : construct (is.map encode) = buildProgram is := by
  simp [construct, decodeWords_map_encode]

/-- Settles O18: the encoded words decode to the sequence itself, and a balanced sequence is scanned to the end with
nothing pending. -/
theorem encodedProgramsConstruct : Obligations.EncodedProgramsConstruct := by
  unfold Obligations.EncodedProgramsConstruct
  intro is hbal
  obtain ⟨P, hP⟩ := buildProgram_of_balanced hbal
  have hconstruct : construct (is.map encode) = .ok P := (construct_map_encode is).trans hP
  exact ⟨P, hconstruct, (buildProgram_ok hP).1, (construct_plen hconstruct).trans (List.length_map encode),
    construct_wf hconstruct⟩

/-- Settles O10: every word is an encoding or spare. -/
theorem decodeEncodeAgree : Obligations.DecodeEncodeAgree := by
  unfold Obligations.DecodeEncodeAgree
  exact ⟨decode_encode, fun _ _ => encode_of_decode, fun _ => exists_decode_iff_wf⟩

/-- Settles O9: the nine words are the encodings, and the seven spare words are evaluated. -/
theorem opcodeWordsDecode : Obligations.OpcodeWordsDecode := by
  unfold Obligations.OpcodeWordsDecode
  exact ⟨decode_encode .incrementPointer, decode_encode .decrementPointer, decode_encode .incrementValue,
    decode_encode .decrementValue, decode_encode .outputValue, decode_encode .inputValue, decode_encode .jumpForward,
    decode_encode .jumpBackward, decode_encode .noOp, rfl, rfl, rfl, rfl, rfl, rfl, rfl⟩

end Sys2Proof.Machine
end

section
/-! The assembler's characters (30_encoding.md R79 to R82): the pairing of characters and tags, and a text read one
character at a time. -/

namespace Sys2Proof

theorem ofChar_of_toChar {i : Instr} {c : Char} (h : i.toChar = some c) : Instr.ofChar c = some i := by
  cases i <;> cases h <;> rfl

theorem toChar_of_ofChar {i : Instr} {c : Char} (h : Instr.ofChar c = some i) : i.toChar = some c := by
  unfold Instr.ofChar at h
  repeat' split at h
  all_goals cases h
  all_goals next hc => exact congrArg some hc.symm

/-- A tag's character is one of the eight (R79). -/
theorem mem_of_toChar {i : Instr} {c : Char} (h : i.toChar = some c) :
    c ∈ ['>', '<', '+', '-', '.', ',', '[', ']'] := by
  cases i <;> cases h <;> decide

/-- Settles O11: each way the pairing is read off the other map, and a character with a tag is that tag's own. -/
theorem charactersAndTagsPair : Obligations.CharactersAndTagsPair := by
  unfold Obligations.CharactersAndTagsPair
  refine ⟨⟨rfl, rfl, rfl, rfl, rfl, rfl, rfl, rfl⟩, fun c hc => ?_, fun i c => ⟨ofChar_of_toChar, toChar_of_ofChar⟩,
    fun i => ?_⟩
  · exact Option.eq_none_iff_forall_ne_some.2 fun i hi => hc (mem_of_toChar (toChar_of_ofChar hi))
  · cases i <;> simp [Instr.toChar]

theorem assemble_append (xs ys : List Char) : assemble (xs ++ ys) = assemble xs ++ assemble ys :=
  List.filterMap_append

theorem assemble_cons_comment {c : Char} (h : Instr.ofChar c = none) (ys : List Char) :
    assemble (c :: ys) = assemble ys :=
  List.filterMap_cons_none h

theorem assemble_cons_command {c : Char} {i : Instr} (h : Instr.ofChar c = some i) (ys : List Char) :
    assemble (c :: ys) = i :: assemble ys :=
  List.filterMap_cons_some h

/-- Settles O12: a text is assembled in parts, and its characters one by one. -/
theorem commentsGiveNoInstruction : Obligations.CommentsGiveNoInstruction := by
  unfold Obligations.CommentsGiveNoInstruction
  refine ⟨fun xs ys c hc => ?_, fun xs ys c i hc => ?_, fun xs => List.length_filterMap_eq_countP⟩
  · rw [assemble_append, assemble_append, assemble_cons_comment hc]
  · rw [assemble_append, assemble_cons_command hc]

end Sys2Proof
end

section
/-! The cell ALU (40_cell_alu.md). A Byte is its two Nybbles, and a bit vector of any width is its sequence of Bits, because both
are read back as its value; the chained 8-bit units then are plus and minus one of `BitVec 8`. -/

namespace Sys2Proof.Machine

/-! ### Conversions -/

@[simp] theorem bitFrom_toNat (n : Nat) : (bitFrom n).toNat = n % 2 := BitVec.toNat_ofNat n 1

@[simp] theorem bitToInt_toNat (b : Bit) : (bitToInt b).toNat = b.toNat :=
  BitVec.toNat_setWidth_of_le (by decide)

@[simp] theorem nybFrom_toNat (u : Byte) : (nybFrom u).toNat = u.toNat % 16 := by
  rw [nybFrom, BitVec.extractLsb'_toNat, Nat.shiftRight_zero]

@[simp] theorem nybToInt_toNat (n : Nybble) : (nybToInt n).toNat = n.toNat :=
  BitVec.toNat_setWidth_of_le (by decide)

@[simp] theorem byteFrom_toNat (n : Nat) : (byteFrom n).toNat = n % 256 := BitVec.toNat_ofNat n 8

/-- Settles O1: masking is the remainder by the power of two, and a value below 16 is its own remainder. -/
theorem bitAndNybbleConversionsMask : Obligations.BitAndNybbleConversionsMask := by
  unfold Obligations.BitAndNybbleConversionsMask
  refine ⟨fun n => ⟨bitFrom_toNat n, ?_⟩, nybFrom_toNat, nybToInt_toNat, fun u hu => BitVec.eq_of_toNat_eq ?_⟩
  · rw [bitToInt_toNat, bitFrom_toNat]
  · rw [nybToInt_toNat, nybFrom_toNat, Nat.mod_eq_of_lt (by omega)]

/-! ### A Byte and its Nybbles -/

@[simp] theorem high_toNat (b : Byte) : (high b).toNat = b.toNat / 16 := by
  have hb := b.isLt
  rw [high, BitVec.extractLsb'_toNat, Nat.shiftRight_eq_div_pow]
  omega

@[simp] theorem low_toNat (b : Byte) : (low b).toNat = b.toNat % 16 := nybFrom_toNat b

@[simp] theorem composeByte_toNat (hi lo : Nybble) : (composeByte hi lo).toNat = hi.toNat * 16 + lo.toNat := by
  rw [composeByte, BitVec.toNat_append, ← Nat.shiftLeft_add_eq_or_of_lt lo.isLt, Nat.shiftLeft_eq]

/-- The integer of R109 is the value of the bit vector. -/
@[simp] theorem byteToInt_eq_toNat (b : Byte) : byteToInt b = b.toNat := by
  rw [byteToInt, high_toNat, low_toNat, Nat.div_add_mod']

theorem composeByte_high_low (b : Byte) : composeByte (high b) (low b) = b :=
  BitVec.eq_of_toNat_eq ((composeByte_toNat _ _).trans (byteToInt_eq_toNat b))

theorem eq_iff_high_low (a b : Byte) : a = b ↔ high a = high b ∧ low a = low b := by
  refine ⟨fun h => ⟨congrArg high h, congrArg low h⟩, fun ⟨hhi, hlo⟩ => ?_⟩
  rw [← composeByte_high_low a, hhi, hlo, composeByte_high_low]

/-- Settles O2: the integer of a Byte is its value, which masking keeps below 256. -/
theorem byteRoundTripLaws : Obligations.ByteRoundTripLaws := by
  unfold Obligations.ByteRoundTripLaws
  refine ⟨fun n hn => ?_, fun hi lo => ?_⟩
  · rw [byteToInt_eq_toNat, byteFrom_toNat, Nat.mod_eq_of_lt (by omega)]
  · rw [byteToInt_eq_toNat, composeByte_toNat]

/-! ### The sequence of Bits -/

/-- A sequence of Bits read as binary, the first item most significant (R108). -/
def bitsToNat (bs : List Bit) : Nat := bs.foldl (fun acc b => 2 * acc + b.toNat) 0

theorem bitsToNat_concat (bs : List Bit) (b : Bit) : bitsToNat (bs ++ [b]) = 2 * bitsToNat bs + b.toNat :=
  List.foldl_concat _ _ b bs

@[simp] theorem bitSeq_length {w : Nat} (v : BitVec w) : (bitSeq v).length = w := by
  rw [bitSeq, List.length_map, List.length_range]

/-- The first `k` Bits, read as binary, are the value without its `w - k` low bits. -/
theorem bitsToNat_take_bitSeq {w : Nat} (v : BitVec w) (k : Nat) (hk : k ≤ w) :
    bitsToNat ((List.range k).map fun j => v.extractLsb' (w - 1 - j) 1) = v.toNat / 2 ^ (w - k) := by
  induction k with
  | zero => exact (Nat.div_eq_of_lt v.isLt).symm
  | succ k ih =>
    have hpow : 2 ^ (w - k) = 2 ^ (w - (k + 1)) * 2 := by rw [← Nat.pow_succ]; congr 1; omega
    rw [List.range_succ, List.map_append, List.map_singleton, bitsToNat_concat, ih (by omega), hpow,
      ← Nat.div_div_eq_div_mul, BitVec.extractLsb'_toNat, Nat.shiftRight_eq_div_pow, Nat.sub_sub, Nat.add_comm 1 k]
    exact Nat.div_add_mod _ 2

theorem bitsToNat_bitSeq {w : Nat} (v : BitVec w) : bitsToNat (bitSeq v) = v.toNat := by
  rw [bitSeq, bitsToNat_take_bitSeq v w le_rfl, Nat.sub_self, Nat.pow_zero, Nat.div_one]

theorem bitSeq_inj {w : Nat} {u v : BitVec w} : bitSeq u = bitSeq v ↔ u = v := by
  refine ⟨fun h => BitVec.eq_of_toNat_eq ?_, congrArg bitSeq⟩
  rw [← bitsToNat_bitSeq u, h, bitsToNat_bitSeq]

theorem bitSeq_zero (w : Nat) : bitSeq (0#w) = List.replicate w 0 := by
  simp [bitSeq, List.map_const']

theorem eq_zero_iff_bitSeq {w : Nat} (v : BitVec w) : v = 0#w ↔ ∀ x ∈ bitSeq v, x = 0 := by
  rw [← bitSeq_inj, bitSeq_zero, List.eq_replicate_iff, and_iff_right (bitSeq_length v)]

theorem isZero8_iff (b : Byte) : isZero8 b = true ↔ b = byteFrom 0 := beq_iff_eq

/-- Settles O3: a sequence of Bits reads back as the value, at every width. -/
theorem nybbleBitSequence : Obligations.NybbleBitSequence := by
  unfold Obligations.NybbleBitSequence
  exact fun n => ⟨bitSeq_length n, bitsToNat_bitSeq n⟩

/-- Settles O5: the integer, the Nybbles and the Bits each determine the Byte. -/
theorem byteEqualityAndZeroTest : Obligations.ByteEqualityAndZeroTest := by
  unfold Obligations.ByteEqualityAndZeroTest
  refine ⟨fun a b => ⟨?_, eq_iff_high_low a b, bitSeq_inj.symm⟩,
    fun b => ⟨isZero8_iff b, (isZero8_iff b).trans (eq_zero_iff_bitSeq b)⟩⟩
  rw [byteToInt_eq_toNat, byteToInt_eq_toNat, BitVec.toNat_inj]

/-! ### The increment and decrement units -/

theorem inc4_carry_iff (n : Nybble) : (inc4 n).2 = 1 ↔ n = 0xF := by
  by_cases h : n = 0xF <;> simp [inc4, h]

theorem dec4_borrow_iff (n : Nybble) : (dec4 n).2 = 1 ↔ n = 0x0 := by
  by_cases h : n = 0x0 <;> simp [dec4, h]

theorem inc4_toNat (n : Nybble) : (inc4 n).1.toNat = (n.toNat + 1) % 16 := BitVec.toNat_add n 1

theorem dec4_toNat (n : Nybble) : (dec4 n).1.toNat = (n.toNat + 15) % 16 := by
  rw [dec4, BitVec.toNat_sub, Nat.add_comm]
  rfl

/-- Settles O6: the units are plus and minus one, and the carry and the borrow are read off their tests. -/
theorem nybbleUnitsWrap : Obligations.NybbleUnitsWrap := by
  unfold Obligations.NybbleUnitsWrap
  exact fun n => ⟨⟨inc4_toNat n, inc4_carry_iff n⟩, ⟨dec4_toNat n, dec4_borrow_iff n⟩,
    BitVec.add_sub_cancel n 1, BitVec.sub_add_cancel n 1⟩

/-- The high unit runs exactly when the low one wrapped (R112). -/
theorem inc8_eq_composeByte (b : Byte) :
    inc8 b = composeByte (if low b = 0xF then (inc4 (high b)).1 else high b) (inc4 (low b)).1 := by
  simp only [inc8, inc4_carry_iff, apply_ite Prod.fst]

/-- The high unit runs exactly when the low one wrapped (R113). -/
theorem dec8_eq_composeByte (b : Byte) :
    dec8 b = composeByte (if low b = 0x0 then (dec4 (high b)).1 else high b) (dec4 (low b)).1 := by
  simp only [dec8, dec4_borrow_iff, apply_ite Prod.fst]

theorem inc8_toNat (b : Byte) : (inc8 b).toNat = (b.toNat + 1) % 256 := by
  have hb := b.isLt
  have hlow : low b = 0xF ↔ b.toNat % 16 = 15 := by rw [← BitVec.toNat_inj, low_toNat]; rfl
  rw [inc8_eq_composeByte, composeByte_toNat, inc4_toNat, low_toNat]
  split
  next hwrap =>
    rw [hlow] at hwrap
    rw [inc4_toNat, high_toNat]
    omega
  next hkeep =>
    rw [hlow] at hkeep
    rw [high_toNat]
    omega

theorem dec8_toNat (b : Byte) : (dec8 b).toNat = (b.toNat + 255) % 256 := by
  have hb := b.isLt
  have hlow : low b = 0x0 ↔ b.toNat % 16 = 0 := by rw [← BitVec.toNat_inj, low_toNat]; rfl
  rw [dec8_eq_composeByte, composeByte_toNat, dec4_toNat, low_toNat]
  split
  next hwrap =>
    rw [hlow] at hwrap
    rw [dec4_toNat, high_toNat]
    omega
  next hkeep =>
    rw [hlow] at hkeep
    rw [high_toNat]
    omega

theorem inc8_dec8 (b : Byte) : inc8 (dec8 b) = b := by
  have hb := b.isLt
  apply BitVec.eq_of_toNat_eq
  rw [inc8_toNat, dec8_toNat]
  omega

theorem dec8_inc8 (b : Byte) : dec8 (inc8 b) = b := by
  have hb := b.isLt
  apply BitVec.eq_of_toNat_eq
  rw [dec8_toNat, inc8_toNat]
  omega

/-- Settles O7: the values of the two units, and that they cancel modulo 256. -/
theorem byteUnitsWrap : Obligations.ByteUnitsWrap := by
  unfold Obligations.ByteUnitsWrap
  exact fun b => ⟨inc8_toNat b, dec8_toNat b, inc8_dec8 b, dec8_inc8 b⟩

theorem inc8_iterate_toNat (n : Nat) (b : Byte) : (inc8^[n] b).toNat = (b.toNat + n) % 256 := by
  induction n with
  | zero => exact (Nat.mod_eq_of_lt b.isLt).symm
  | succ n ih => rw [Function.iterate_succ_apply', inc8_toNat, ih, Nat.mod_add_mod, Nat.add_assoc]

theorem inc8_iterate_256 (b : Byte) : inc8^[256] b = b := by
  apply BitVec.eq_of_toNat_eq
  rw [inc8_iterate_toNat, Nat.add_mod_right, Nat.mod_eq_of_lt b.isLt]

/-- Settles O8, by induction on the number of increments. -/
theorem repeatedIncrementAdds : Obligations.RepeatedIncrementAdds := by
  unfold Obligations.RepeatedIncrementAdds
  exact fun n b => ⟨inc8_iterate_toNat n b, inc8_iterate_256 b⟩

end Sys2Proof.Machine
end

section
/-! Program construction (41_program_jump_table.md): what the bracket-matching unit accepts, and where it reports a bracket
without a counterpart (R132 to R134). The scan is read against the depth count, its stack being as high as the depth. -/

namespace Sys2Proof

/-- The bottom of the stack of open brackets is a `[`, and before it the brackets balance. -/
theorem OpenBefore.bottom {is : List Instr} {k b : Nat} {st : List Nat} (h : OpenBefore is k st)
    (hb : st.getLast? = some b) : is[b]? = some .jumpForward ∧ balanced (is.take b) = true := by
  induction st generalizing k with
  | nil => cases hb
  | cons j st ih =>
    obtain ⟨-, hj, -, hst⟩ := h
    cases st with
    | nil =>
      cases hb
      exact ⟨hj, hst⟩
    | cons j' st => exact ih hst (by rwa [List.getLast?_cons_cons] at hb)

/-- A matching pair after a balanced text ends a balanced text. -/
theorem Matched.balanced_take {is : List Instr} {i j : Nat} (h : Matched is i j) (hi : balanced (is.take i) = true) :
    balanced (is.take (j + 1)) = true := by
  have happ : balanced (segment is 0 i ++ segment is i (j + 1)) = true := balanced_append hi h.balanced_segment
  rwa [segment_append is (Nat.zero_le i) (h.lt.le.trans (Nat.le_succ j))] at happ

end Sys2Proof

namespace Sys2Proof.Machine

/-! ## Where the scan stops -/

/-- The scan stops exactly at a `]` that the depth count, begun at the height of the stack, reaches at 0. -/
theorem scan_error_iff_balancedFrom {is : List Instr} {k : Nat} {sc : Scan} {e : ConstructError} :
    scan k is sc = .error e ↔ ∃ n, is[n]? = some .jumpBackward ∧ balancedFrom sc.stack.length (is.take n) = true ∧
      e = .malformedProgram .closing (k + n) := by
  induction is generalizing k sc with
  | nil => simp [scan]
  | cons i is ih =>
    rw [← Nat.or_exists_add_one]
    have hindex : ∀ n, k + 1 + n = k + (n + 1) := fun n => by omega
    by_cases hf : i = .jumpForward
    · subst hf
      rw [scan_cons_ok (scanStep_open k sc), ih]
      simp [hindex]
    · by_cases hb : i = .jumpBackward
      · subst hb
        cases hs : sc.stack with
        | nil =>
          rw [scan_cons_error (scanStep_close_nil hs)]
          simp [eq_comm]
        | cons j rest =>
          rw [scan_cons_ok (scanStep_close_cons hs), ih]
          simp [hindex]
      · rw [scan_cons_ok (scanStep_other hf hb k sc), ih]
        simp [hindex, hb, balancedFrom_other hf hb]

/-- The scan reaches the end exactly if it comes to no such `]`. -/
theorem scan_ok_iff_balancedFrom {is : List Instr} {k : Nat} {sc : Scan} : (∃ sc', scan k is sc = .ok sc') ↔
    ∀ n, balancedFrom sc.stack.length (is.take n) = true → is[n]? ≠ some .jumpBackward := by
  cases hs : scan k is sc with
  | ok sc' =>
    refine iff_of_true ⟨sc', rfl⟩ fun n hn hback => ?_
    cases hs.symm.trans (scan_error_iff_balancedFrom.2 ⟨n, hback, hn, rfl⟩)
  | error e =>
    obtain ⟨n, hback, hn, -⟩ := scan_error_iff_balancedFrom.1 hs
    exact iff_of_false nofun fun h => h n hn hback

/-- The scan passes a balanced beginning and has nothing pending after it. -/
theorem scan_drop_of_balanced_take {is : List Instr} {k : Nat} (hk : k ≤ is.length) (h : balanced (is.take k) = true) :
    ∃ jt, scan 0 is { stack := [], jt := [] } = scan k (is.drop k) { stack := [], jt := jt } := by
  obtain ⟨jt, hs⟩ := scan_ok_nil_iff_balancedFrom (k := 0) (sc := { stack := [], jt := [] }).2 h
  have happ := scan_append (js := is.drop k) hs
  rw [List.take_append_drop, List.length_take_of_le hk, Nat.zero_add] at happ
  exact ⟨jt, happ⟩

/-- What the scan leaves pending was pending before it or stands in what it scanned. -/
theorem mem_stack_of_scan {is : List Instr} {k p : Nat} {sc sc' : Scan} (h : scan k is sc = .ok sc')
    (hp : p ∈ sc'.stack) : p ∈ sc.stack ∨ k ≤ p := by
  induction is generalizing k sc with
  | nil => cases h; exact .inl hp
  | cons i is ih =>
    by_cases hf : i = .jumpForward
    · subst hf
      rw [scan_cons_ok (scanStep_open k sc)] at h
      rcases ih h with hmem | hle
      · rcases List.mem_cons.1 hmem with rfl | hmem
        · exact .inr le_rfl
        · exact .inl hmem
      · exact .inr (Nat.le_of_succ_le hle)
    · by_cases hb : i = .jumpBackward
      · subst hb
        cases hs : sc.stack with
        | nil => cases (scan_cons_error (scanStep_close_nil hs)).symm.trans h
        | cons j rest =>
          rw [scan_cons_ok (scanStep_close_cons hs)] at h
          exact (ih h).imp (List.mem_cons_of_mem j) Nat.le_of_succ_le
      · rw [scan_cons_ok (scanStep_other hf hb k sc)] at h
        exact (ih h).imp_right Nat.le_of_succ_le

/-- A scan that closes nothing pending before it does the same above any further pending brackets. -/
theorem scan_above {is : List Instr} {k : Nat} {sc sc' : Scan} (h : scan k is sc = .ok sc') (base : List Nat)
    (jt : List (Option Nat)) :
    ∃ jt', scan k is { stack := sc.stack ++ base, jt := jt } = .ok { stack := sc'.stack ++ base, jt := jt' } := by
  induction is generalizing k sc jt with
  | nil => cases h; exact ⟨jt, rfl⟩
  | cons i is ih =>
    by_cases hf : i = .jumpForward
    · subst hf
      rw [scan_cons_ok (scanStep_open k sc)] at h
      rw [scan_cons_ok (scanStep_open k _)]
      exact ih h _
    · by_cases hb : i = .jumpBackward
      · subst hb
        cases hs : sc.stack with
        | nil => cases (scan_cons_error (scanStep_close_nil hs)).symm.trans h
        | cons j rest =>
          rw [scan_cons_ok (scanStep_close_cons hs)] at h
          rw [scan_cons_ok (scanStep_close_cons rfl)]
          exact ih h _
      · rw [scan_cons_ok (scanStep_other hf hb k sc)] at h
        rw [scan_cons_ok (scanStep_other hf hb k _)]
        exact ih h _

/-! ## What a failed construction reports -/

/-- Step 3 of `Construct` reports only an UnmatchedOpen, at the bottom of the stack (R133, R134). -/
theorem closeScan_error_iff {is : List Instr} {sc : Scan} {e : ConstructError} :
    closeScan is sc = .error e ↔ ∃ b, sc.stack.getLast? = some b ∧ e = .malformedProgram .opening b := by
  unfold closeScan
  cases sc.stack.getLast? with
  | none => simp
  | some b => simp [eq_comm]

/-- A construction fails in the scan or at its end. -/
theorem buildProgram_error_iff {is : List Instr} {e : ConstructError} : buildProgram is = .error e ↔
    scan 0 is { stack := [], jt := [] } = .error e ∨
      ∃ sc, scan 0 is { stack := [], jt := [] } = .ok sc ∧ closeScan is sc = .error e := by
  unfold buildProgram
  cases scan 0 is { stack := [], jt := [] } with
  | error e' => simp
  | ok sc => simp

/-- UnmatchedClose comes from the scan. -/
theorem buildProgram_closing_iff {is : List Instr} {k : Nat} :
    buildProgram is = .error (.malformedProgram .closing k) ↔
      scan 0 is { stack := [], jt := [] } = .error (.malformedProgram .closing k) := by
  rw [buildProgram_error_iff]
  simp [closeScan_error_iff]

/-- UnmatchedOpen comes from a scan that reaches the end. -/
theorem buildProgram_opening_iff {is : List Instr} {k : Nat} :
    buildProgram is = .error (.malformedProgram .opening k) ↔
      ∃ sc, scan 0 is { stack := [], jt := [] } = .ok sc ∧ sc.stack.getLast? = some k := by
  rw [buildProgram_error_iff, scan_error_iff_balancedFrom]
  simp [closeScan_error_iff]

/-! ## Balance decides -/

/-- Settles O13: a successful construction is a scan that ends with nothing pending, which is the depth count ending
at 0. -/
theorem constructionAcceptsBalanced : Obligations.ConstructionAcceptsBalanced := by
  unfold Obligations.ConstructionAcceptsBalanced
  refine fun is => ⟨fun ⟨P, hP⟩ => ?_, buildProgram_of_balanced⟩
  exact scan_ok_nil_iff_balancedFrom.1 ⟨P.jt, (buildProgram_ok hP).2⟩

/-- Settles O15: the scan begins with an empty stack, so it stops where the depth count is 0 from the start. -/
theorem unmatchedCloseIsTheFirst : Obligations.UnmatchedCloseIsTheFirst := by
  unfold Obligations.UnmatchedCloseIsTheFirst
  intro is k
  rw [buildProgram_closing_iff, scan_error_iff_balancedFrom]
  simp [balanced]

/-! ## The outermost open bracket -/

/-- A `[` before which the brackets balance is reported exactly if nothing after it closes it. A `]` that does would end
balanced text, after which nothing up to it is pending; without one, the scan of what follows never takes it off the
stack. -/
theorem buildProgram_opening_iff_of_balanced_take {is : List Instr} {k : Nat} (hi : is[k]? = some .jumpForward)
    (hbal : balanced (is.take k) = true) :
    buildProgram is = .error (.malformedProgram .opening k) ↔
      ∀ n, balanced ((is.drop (k + 1)).take n) = true → (is.drop (k + 1))[n]? ≠ some .jumpBackward := by
  obtain ⟨hk, hget⟩ := List.getElem?_eq_some_iff.1 hi
  rw [buildProgram_opening_iff]
  constructor
  · rintro ⟨sc, hs, hlast⟩ n hbody hclose
    rw [List.getElem?_drop] at hclose
    have hmatched : Matched is k (k + 1 + n) :=
      ⟨hi, hclose, by omega, by rwa [segment, Nat.add_sub_cancel_left]⟩
    obtain ⟨jt, hdrop⟩ :=
      scan_drop_of_balanced_take (List.getElem?_eq_some_iff.1 hclose).1 (hmatched.balanced_take hbal)
    rcases mem_stack_of_scan (hdrop.symm.trans hs) (List.mem_of_getLast? hlast) with hmem | hle
    · cases hmem
    · omega
  · intro hnone
    obtain ⟨sc, hs⟩ := scan_ok_iff_balancedFrom (k := k + 1) (sc := { stack := [], jt := [] }).2 hnone
    obtain ⟨jt, hdrop⟩ := scan_drop_of_balanced_take hk.le hbal
    rw [List.drop_eq_getElem_cons hk, hget, scan_cons_ok (scanStep_open k _)] at hdrop
    obtain ⟨jt', habove⟩ := scan_above hs [k] (jt ++ [none])
    exact ⟨_, hdrop.trans habove, by simp⟩

/-- Settles O16: the index reported is the bottom of the stack, a `[` before which the brackets balance. -/
theorem unmatchedOpenIsTheOutermost : Obligations.UnmatchedOpenIsTheOutermost := by
  unfold Obligations.UnmatchedOpenIsTheOutermost
  refine fun is k => ⟨fun h => ?_, fun ⟨hi, hbal, hnone⟩ =>
    (buildProgram_opening_iff_of_balanced_take hi hbal).2 hnone⟩
  obtain ⟨sc, hs, hlast⟩ := buildProgram_opening_iff.1 h
  obtain ⟨hi, hbal⟩ := ((ScanInv.start is).scan rfl (Nat.zero_le _) hs).pending.bottom hlast
  exact ⟨hi, hbal, (buildProgram_opening_iff_of_balanced_take hi hbal).1 h⟩

end Sys2Proof.Machine
end

section
/-! What was constructed, in the machine: LOAD installs it or reports the construction's error (41_program_jump_table.md R135,
R141), and the sequencer fetches from it (42_sequencer.md R151, R152). -/

namespace Sys2Proof.Machine

/-! ## LOAD -/

/-- An idle machine LOADs words that fit by constructing them. -/
theorem State.command_load_ok {s : State} {ws : List OpWord} {P : Program} (hw : s.ioWait = none)
    (hf : s.params.fits ws.length = true) (hc : construct ws = .ok P) :
    s.command (.load ws) = (s.install P, .done .ok) := by
  rw [State.command_load_idle hw, State.load, if_pos hf, hc]

theorem State.command_load_error {s : State} {ws : List OpWord} {e : ConstructError} (hw : s.ioWait = none)
    (hf : s.params.fits ws.length = true) (hc : construct ws = .error e) :
    s.command (.load ws) = (s, .done e.cause) := by
  rw [State.command_load_idle hw, State.load, if_pos hf, hc]

/-- Settles O20: LOAD installs the Program, with `pc` at 0, which is below `plen` or is `plen`. -/
theorem loadInstallsProgram : Obligations.LoadInstallsProgram := by
  unfold Obligations.LoadInstallsProgram
  intro s ws P hw hf hc
  rw [State.command_load_ok hw hf hc]
  exact ⟨rfl, fun _ => rfl, fun hpos => decide_eq_true hpos, fun hzero => beq_iff_eq.2 hzero.symm⟩

/-- Settles O21: the state stays and the reply is the error's cause. -/
theorem failedLoadChangesNothing : Obligations.FailedLoadChangesNothing := by
  unfold Obligations.FailedLoadChangesNothing
  exact fun s ws hw hf => ⟨fun _ hc => State.command_load_error hw hf hc, fun _ _ hc => State.command_load_error hw hf hc⟩

/-! ## The fetch -/

theorem Program.getInstruction_of_le {P : Program} {p : Nat} (h : P.plen ≤ p) : P.getInstruction p = none :=
  List.getElem?_eq_none h

theorem Program.fetch_of_le {P : Program} {p : Nat} (h : P.plen ≤ p) : P.fetch p = .noOp := by
  rw [Program.fetch, Program.getInstruction_of_le h]

/-- Settles O25: an index is below `plen`, where an instruction stands, or not. -/
theorem fetchIsTotal : Obligations.FetchIsTotal := by
  unfold Obligations.FetchIsTotal
  exact fun P p => ⟨fun hlt => ⟨P.fetch p, Program.get_of_lt hlt, Program.get_of_lt hlt, rfl⟩,
    fun hle => ⟨Program.getInstruction_of_le hle, Program.fetch_of_le hle⟩⟩

/-- The instructions decoded are the ones the words encode. -/
theorem map_encode_of_decodeWords {k : Nat} {ws : List OpWord} {is : List Instr} (h : decodeWords k ws = .ok is) :
    is.map encode = ws := by
  induction ws generalizing k is with
  | nil => cases h; rfl
  | cons w ws ih =>
    unfold decodeWords at h
    split at h
    · cases h
    · next i hi =>
      split at h
      · cases h
      · next hd => cases h; rw [List.map_cons, encode_of_decode hi, ih hd]

/-- The words of a constructed Program are the encodings of its instructions. -/
theorem map_encode_of_construct {ws : List OpWord} {P : Program} (h : construct ws = .ok P) :
    P.imem.map encode = ws := by
  obtain ⟨is, hd, hb⟩ := construct_ok h
  rw [(buildProgram_ok hb).1, map_encode_of_decodeWords hd]

/-- Settles O27: the word at `pc` encodes the instruction at `pc`, so decodes to it. -/
theorem stepRunsDecodedWord : Obligations.StepRunsDecodedWord := by
  unfold Obligations.StepRunsDecodedWord
  intro s ws w i hw hc hget hdec
  rw [← map_encode_of_construct hc, List.getElem?_map] at hget
  obtain ⟨j, hj, rfl⟩ := Option.map_eq_some_iff.1 hget
  cases (decode_encode j).symm.trans hdec
  exact step_of_current (State.current_of_get hw hj)

end Sys2Proof.Machine
end

section
/-! The run states and the STEP command (42_sequencer.md): Running, Halted and the default advance (R150 to R155), what
excludes what at the end of a run (R161), and what the host receives of a STEP that is suspended (R156). -/

namespace Sys2Proof.Machine

/-- Settles O26: the instruction at `pc` is the one a transition executes. -/
theorem stepRunsFetchedInstruction : Obligations.StepRunsFetchedInstruction := by
  unfold Obligations.StepRunsFetchedInstruction
  exact fun s i hw hi => step_of_current (State.current_of_get hw hi)

/-- Settles O23: a machine suspended on either channel is busy, and takes neither command. -/
theorem busyMachineTakesNoCommand : Obligations.BusyMachineTakesNoCommand := by
  unfold Obligations.BusyMachineTakesNoCommand
  intro s hw
  obtain ⟨w, hw⟩ := Option.ne_none_iff_exists'.1 hw
  exact ⟨State.busy_of_some hw, State.command_step_busy hw, State.command_load_busy hw⟩

/-! ## The answer to a STEP -/

/-- A transition answers `Ok`, or that the STEP is suspended, by the state it leaves (R156). -/
theorem State.stepNow_of_next {s t : State} (h : step s = .next t) :
    s.stepNow = (t, if t.ioWait = none then .done .ok else .suspended) := by
  rw [State.stepNow_next h]
  cases ht : t.ioWait with
  | none => rw [State.busy_of_none ht]; rfl
  | some w => rw [State.busy_of_some ht]; rfl

theorem State.command_step_next {s t : State} (hw : s.ioWait = none) (h : step s = .next t) :
    s.command .step = (t, if t.ioWait = none then .done .ok else .suspended) :=
  (State.command_step_idle hw).trans (State.stepNow_of_next h)

theorem State.Suspended.resumeNow_eq {s : State} (h : s.Suspended) :
    s.resumeNow = (s.stepNow.1, some s.stepNow.2) :=
  if_pos (Option.isSome_iff_ne_none.2 h)

/-- A moment of a suspended STEP answers as its transition does. -/
theorem State.Suspended.resumeNow_next {s t : State} (hs : s.Suspended) (h : step s = .next t) :
    s.resumeNow = (t, some (if t.ioWait = none then .done .ok else .suspended)) := by
  rw [hs.resumeNow_eq, State.stepNow_of_next h]

/-- A state that steps to itself is where any run from it leads. -/
theorem run_of_step_self {s : State} (h : step s = .next s) (n : Nat) : run n s = .next s := by
  induction n with
  | zero => rfl
  | succ n ih => rw [run_succ h, ih]

/-- Settles O28: a step in Halted leads to the same state, so any number of them does. -/
theorem haltedStepsChangeNothing : Obligations.HaltedStepsChangeNothing := by
  unfold Obligations.HaltedStepsChangeNothing
  intro s n hw hp
  have hstep : step s = .next s := step_atEnd hw hp
  exact ⟨run_of_step_self hstep n, by rw [State.command_step_next hw hstep, if_pos hw]⟩

/-! ## Running and Halted -/

theorem State.running_iff {s : State} : s.running = true ↔ s.pc < s.plen := decide_eq_true_iff

theorem State.halted_iff {s : State} : s.halted = true ↔ s.pc = s.plen := beq_iff_eq

/-- Where the next transition executes an instruction, the machine is Running. -/
theorem State.Inv.running_of_current {s : State} {i : Instr} (h : s.Inv) (hc : s.current = some i) :
    s.running = true :=
  State.running_iff.2 (List.getElem?_eq_some_iff.1 (h.get_of_current hc)).1

theorem State.Inv.current_of_halted {s : State} (h : s.Inv) (hh : s.halted = true) : s.current = none := by
  cases hc : s.current with
  | none => rfl
  | some i =>
    have hlt : s.pc < s.plen := State.running_iff.1 (h.running_of_current hc)
    exact absurd (State.halted_iff.1 hh) hlt.ne

/-- Only an instruction faults. -/
theorem exists_current_of_fault {s : State} {f : Fault} (h : step s = .fault f) : ∃ i, s.current = some i := by
  cases hc : s.current with
  | none => cases (step_of_current_none hc).symm.trans h
  | some i => exact ⟨i, rfl⟩

theorem State.Inv.running_of_fault {s : State} {f : Fault} (h : s.Inv) (hf : step s = .fault f) :
    s.running = true := by
  obtain ⟨i, hc⟩ := exists_current_of_fault hf
  exact h.running_of_current hc

/-- Settles O29: `pc` is at most `plen`; in Halted no instruction is executed, and only an instruction faults. -/
theorem runStates : Obligations.RunStates := by
  unfold Obligations.RunStates
  intro s h
  refine ⟨State.running_iff, State.halted_iff, ?_, fun hh t ht => ?_, fun f => h.running_of_fault⟩
  · rw [← Bool.not_eq_true, State.running_iff, State.halted_iff]
    exact h.pc_le.lt_iff_ne
  · rw [step_of_current_none (h.current_of_halted hh)] at ht
    cases ht
    exact hh

/-! ## The default advance -/

/-- An instruction that has completed and is not a taken jump has advanced `pc` by one (R154). -/
theorem ExecNext.pc_of_not_taken {i : Instr} {s t : State} (h : ExecNext i s t)
    (hforward : ¬ (i = .jumpForward ∧ s.cellIsZero = true)) (hback : ¬ (i = .jumpBackward ∧ s.cellIsZero = false))
    (hw : t.ioWait = none) : t.pc = s.pc + 1 := by
  cases i with
  | incrementPointer => obtain ⟨-, rfl⟩ := h; rfl
  | decrementPointer => obtain ⟨-, rfl⟩ := h; rfl
  | incrementValue => obtain ⟨-, rfl⟩ := h; rfl
  | decrementValue => obtain ⟨-, rfl⟩ := h; rfl
  | outputValue =>
    obtain ⟨-, ⟨-, rfl⟩ | ⟨-, rfl⟩⟩ := h
    · rfl
    · cases hw
  | inputValue =>
    obtain ⟨-, ⟨-, rfl⟩ | ⟨-, rfl⟩ | ⟨b, -, rfl⟩⟩ := h
    · cases hw
    · rfl
    · rfl
  | jumpForward =>
    obtain ⟨-, ⟨hz, -⟩ | ⟨-, rfl⟩⟩ := h
    · exact absurd ⟨rfl, hz⟩ hforward
    · rfl
  | jumpBackward =>
    obtain ⟨-, ⟨-, rfl⟩ | ⟨hz, -⟩⟩ := h
    · rfl
    · exact absurd ⟨rfl, hz⟩ hback
  | noOp => cases h; rfl

/-- An instruction that leaves an idle machine suspended is one of the two of I/O and has not advanced (R33, R154). -/
theorem ExecEffect.pc_of_suspends {i : Instr} {s t : State} (h : ExecEffect i s t) (hs : s.ioWait = none)
    (ht : t.ioWait ≠ none) : t.pc = s.pc ∧ (i = .outputValue ∨ i = .inputValue) := by
  rcases h.ioWait with hw | ⟨hp, hio⟩ | ⟨-, -, hw⟩
  · exact absurd hw ht
  · exact ⟨hp, hio.imp And.left And.left⟩
  · exact absurd (hw.trans hs) ht

/-- Settles O30: the instruction has completed and advanced, or the machine is suspended on it. -/
theorem defaultAdvance : Obligations.DefaultAdvance := by
  unfold Obligations.DefaultAdvance
  intro i s t hs hlt h hforward hback
  have heffect := (exec_next h).effect
  refine ⟨fun ht => ?_, heffect.pc_of_suspends hs⟩
  have hpc : t.pc = s.pc + 1 := (exec_next h).pc_of_not_taken hforward hback ht
  have hplen : t.plen = s.plen := congrArg Program.plen heffect.program
  exact ⟨hpc, by rw [hpc, hplen]; exact hlt, by rw [State.halted_iff, hpc, hplen]⟩

/-! ## One moment of a suspended transfer -/

theorem State.setIoWait_self {s : State} {w : Option IoWait} (h : s.ioWait = w) : s.setIoWait w = s := by
  cases h
  rfl

/-- The collaborator completes the transfer the machine is suspended on at this sample (R192, R195). -/
def State.Completing (s : State) : Prop :=
  s.ioWait = some .out ∧ s.env.outReadyNow = true ∨ s.ioWait = some .inp ∧ s.env.inPinsNow.valid = true

/-- The machine is suspended, and the collaborator does not complete the transfer at this sample. -/
def State.Unanswered (s : State) : Prop :=
  s.ioWait = some .out ∧ s.env.outReadyNow = false ∨ s.ioWait = some .inp ∧ s.env.inPinsNow.valid = false

/-- At each sample a suspended transfer completes or it does not. -/
theorem State.suspended_iff {s : State} : s.Suspended ↔ s.Completing ∨ s.Unanswered := by
  unfold State.Suspended State.Completing State.Unanswered
  match s.ioWait with
  | none => simp
  | some .out => cases s.env.outReadyNow <;> simp
  | some .inp => cases s.env.inPinsNow.valid <;> simp

/-- The completing moment ends the suspension and advances `pc` (R192, R195). -/
theorem State.Completing.step_next {s : State} (h : s.Completing) (hd : s.dp < s.params.tapeLen) :
    ∃ t, step s = .next t ∧ t.ioWait = none ∧ t.pc = s.pc + 1 := by
  rcases h with ⟨hw, hr⟩ | ⟨hw, hv⟩
  · rw [step_suspendedOut hw, outputTransfer_of_lt hd, State.offerOutput_ready hr]
    exact ⟨_, rfl, rfl, rfl⟩
  · rw [step_suspendedInp hw, inputTransfer_of_lt hd]
    cases he : s.env.inPinsNow.eof with
    | true =>
      rw [State.requestInput_eof (InPins.answer_eof hv he)]
      exact ⟨_, rfl, rfl, rfl⟩
    | false =>
      rw [State.requestInput_byte (InPins.answer_byte hv he)]
      exact ⟨_, rfl, rfl, rfl⟩

/-- An unanswered moment is past on the collaborator's side, and nothing else has changed (R198). -/
theorem State.Unanswered.step_next {s : State} (h : s.Unanswered) (hd : s.dp < s.params.tapeLen) :
    ∃ e : Env, step s = .next (s.setEnv e) ∧ e.events = s.env.events := by
  rcases h with ⟨hw, hr⟩ | ⟨hw, hv⟩
  · rw [step_suspendedOut hw, outputTransfer_of_lt hd, State.offerOutput_waiting hr,
      State.setIoWait_self (s := s.setEnv s.env.nextOut) hw]
    exact ⟨_, rfl, rfl⟩
  · rw [step_suspendedInp hw, inputTransfer_of_lt hd, State.requestInput_waiting (InPins.answer_eq_none.2 hv),
      State.setIoWait_self (s := s.setEnv s.env.nextIn) hw]
    exact ⟨_, rfl, rfl⟩

/-- Settles O46: the transfer completes and the host receives `Ok`, or the machine waits on and so does the host. -/
theorem suspendedStepDeliversOk : Obligations.SuspendedStepDeliversOk := by
  unfold Obligations.SuspendedStepDeliversOk
  refine ⟨fun s hd => ⟨fun (hdone : s.Completing) => ?_, fun (hopen : s.Unanswered) => ?_⟩,
    fun s => State.resumeNow_idle, fun s t => State.command_step_next, rfl, rfl⟩
  · have hs : s.Suspended := State.suspended_iff.2 (.inl hdone)
    obtain ⟨t, hstep, ht, hpc⟩ := hdone.step_next hd
    exact ⟨t, hstep, by rw [hs.resumeNow_next hstep, if_pos ht], ht, hpc⟩
  · have hs : s.Suspended := State.suspended_iff.2 (.inr hopen)
    obtain ⟨e, hstep, hevents⟩ := hopen.step_next hd
    exact ⟨s.setEnv e, hstep, by rw [hs.resumeNow_next hstep, State.setEnv_ioWait, if_neg hs], rfl, hevents⟩

/-! ## The end of a run, a fault and a suspension -/

theorem State.Ended.step_self {s : State} (h : s.Ended) : step s = .next s := by
  obtain ⟨hp, hw⟩ := h
  exact step_atEnd hw hp

/-- A suspended transfer does not fault where the current cell exists. -/
theorem State.Suspended.exists_step_next {s : State} (h : s.Suspended) (hd : s.dp < s.params.tapeLen) :
    ∃ t, step s = .next t := by
  rcases State.suspended_iff.1 h with hdone | hopen
  · obtain ⟨t, hstep, -⟩ := hdone.step_next hd
    exact ⟨t, hstep⟩
  · obtain ⟨e, hstep, -⟩ := hopen.step_next hd
    exact ⟨s.setEnv e, hstep⟩

theorem State.Suspended.exists_current {s : State} (h : s.Suspended) : ∃ i, s.current = some i := by
  unfold State.current
  match hw : s.ioWait with
  | none => exact absurd hw h
  | some .out => exact ⟨.outputValue, rfl⟩
  | some .inp => exact ⟨.inputValue, rfl⟩

/-- Settles O32: an ended machine and a suspended one each answer a next state, and what faults or is suspended has an
instruction to execute. -/
theorem endFaultAndSuspensionAreDistinct : Obligations.EndFaultAndSuspensionAreDistinct := by
  unfold Obligations.EndFaultAndSuspensionAreDistinct
  intro s h
  refine ⟨fun ⟨hend, hfault⟩ => ?_, fun ⟨⟨_, hidle⟩, hsusp⟩ => hsusp hidle, fun ⟨hfault, hsusp⟩ => ?_,
    fun hfault => h.running_of_fault hfault, fun hsusp => ?_, fun hend => (run_one s).trans hend.step_self⟩
  · cases hend.step_self.symm.trans hfault
  · obtain ⟨t, hstep⟩ := hsusp.exists_step_next h.dp_lt
    cases hstep.symm.trans hfault
  · obtain ⟨i, hc⟩ := hsusp.exists_current
    exact h.running_of_current hc

end Sys2Proof.Machine
end

section
/-! The data-pointer instructions (43_pointer.md R170, R171): the pointer moves by one, or the STEP is rejected whole
(60_exceptions.md R224). -/

namespace Sys2Proof.Machine

/-- A fetched instruction that raises the fault gives the host the state it started from, and the fault (R224). -/
theorem State.command_step_of_exec_fault {s : State} {i : Instr} (hw : s.ioWait = none)
    (hi : s.program.imem[s.pc]? = some i) (hf : exec i s = .fault .pointerOutOfBounds) :
    s.command .step = (s, .done .pointerOutOfBounds) := by
  have hstep : step s = .fault .pointerOutOfBounds := (step_of_current (State.current_of_get hw hi)).trans hf
  exact (State.command_step_idle hw).trans (State.stepNow_fault hstep)

/-- Settles O33: below the last cell the instruction moves `dp` up, and at the last cell the fault reaches the host. -/
theorem incrementPointerEffect : Obligations.IncrementPointerEffect := by
  unfold Obligations.IncrementPointerEffect
  refine ⟨decode_encode .incrementPointer, ofChar_of_toChar (i := .incrementPointer) rfl, fun s hd => ?_,
    fun s => exec_incrementPointer_atEnd, fun s hd hw hi => ?_⟩
  · exact ExecNext.exec_eq (i := .incrementPointer) ⟨hd, rfl⟩
  · exact State.command_step_of_exec_fault hw hi (exec_incrementPointer_atEnd hd)

/-- Settles O34: above cell 0 the instruction moves `dp` down, and at cell 0 the fault reaches the host. -/
theorem decrementPointerEffect : Obligations.DecrementPointerEffect := by
  unfold Obligations.DecrementPointerEffect
  refine ⟨decode_encode .decrementPointer, ofChar_of_toChar (i := .decrementPointer) rfl, fun s hd => ?_,
    fun s => exec_decrementPointer_atStart, fun s hd hw hi => ?_⟩
  · exact ExecNext.exec_eq (i := .decrementPointer) ⟨hd, rfl⟩
  · exact State.command_step_of_exec_fault hw hi (exec_decrementPointer_atStart hd)

end Sys2Proof.Machine
end

section
/-! The cell-value instructions (44_cell_value.md R180, R181): each stores a function of the current cell in that cell, so
that executions one after the other leave one write of the composed value. -/

namespace Sys2Proof.Machine

/-! ## Writes to one cell -/

/-- Of two writes to one cell the second remains. -/
theorem Memory.write_write {m : Memory} (h : m.wf) (a : Nat) (v w : Byte) : (m.write a v).write a w = m.write a w := by
  have hv : (m.write a v).wf := Memory.write_wf h a v
  refine Memory.ext (Memory.write_wf hv a w) (Memory.write_wf h a w) fun b => ?_
  by_cases hb : b = a
  · subst hb
    rw [Memory.read_write_same hv, Memory.read_write_same h]
  · rw [Memory.read_write_other _ hb, Memory.read_write_other _ hb, Memory.read_write_other _ hb]

/-- Writing what a cell holds changes nothing. -/
theorem Memory.write_read {m : Memory} (h : m.wf) (a : Nat) : m.write a (m.read a) = m := by
  refine Memory.ext (Memory.write_wf h a _) h fun b => ?_
  by_cases hb : b = a
  · subst hb
    exact Memory.read_write_same h b _
  · exact Memory.read_write_other m hb _

/-! ## The state after a number of updates -/

/-- `v` stored in the current cell, and `pc` advanced `n` times. -/
def State.storeAdvance (s : State) (v : Byte) (n : Nat) : State :=
  { s with tape := s.tape.write s.dp v, pc := s.pc + n }

theorem updateCell_eq_storeAdvance {s : State} (hd : s.dp < s.params.tapeLen) (f : Byte → Byte) :
    updateCell f s = .next (s.storeAdvance (f (s.memRead s.dp)) 1) := updateCell_of_lt hd f

section
variable {s : State} (hd : s.dp < s.params.tapeLen) (h : s.tape.wf)
include h

theorem State.storeAdvance_memRead (n : Nat) : s.storeAdvance (s.memRead s.dp) n = { s with pc := s.pc + n } :=
  congrArg (fun m => { s with tape := m, pc := s.pc + n }) (Memory.write_read h s.dp)

theorem State.storeAdvance_storeAdvance (v w : Byte) (n k : Nat) :
    (s.storeAdvance v n).storeAdvance w k = s.storeAdvance w (n + k) := by
  simp only [State.storeAdvance, Memory.write_write h, Nat.add_assoc]

include hd

/-- A further update replaces the stored value by its image. -/
theorem updateCell_storeAdvance (f : Byte → Byte) (v : Byte) (n : Nat) :
    updateCell f (s.storeAdvance v n) = .next (s.storeAdvance (f v) (n + 1)) := by
  have hread : (s.storeAdvance v n).memRead s.dp = v := Memory.read_write_same h s.dp v
  calc updateCell f (s.storeAdvance v n)
      = .next ((s.storeAdvance v n).storeAdvance (f ((s.storeAdvance v n).memRead s.dp)) 1) :=
        updateCell_eq_storeAdvance (s := s.storeAdvance v n) hd f
    _ = .next (s.storeAdvance (f v) (n + 1)) := by rw [hread, State.storeAdvance_storeAdvance h]

/-- One update: the current cell gets its image, and every other cell reads as before. -/
theorem updateCell_effect (f : Byte → Byte) : ∃ m : Memory,
    updateCell f s = .next { s with tape := m, pc := s.pc + 1 } ∧ m.wf ∧ m.read s.dp = f (s.memRead s.dp) ∧
      ∀ a, a ≠ s.dp → m.read a = s.memRead a :=
  ⟨s.tape.write s.dp (f (s.memRead s.dp)), updateCell_of_lt hd f, Memory.write_wf h _ _, Memory.read_write_same h _ _,
    fun _ ha => Memory.read_write_other _ ha _⟩

/-- An update that undoes another, executed after it, gives the whole tape back. -/
theorem updateCell_undo {f g : Byte → Byte} (hgf : ∀ v, g (f v) = v) :
    ∃ t, updateCell f s = .next t ∧ updateCell g t = .next { s with pc := s.pc + 2 } := by
  refine ⟨_, updateCell_eq_storeAdvance hd f, ?_⟩
  rw [updateCell_storeAdvance hd h, hgf, State.storeAdvance_memRead h]

/-- `n` executions of an instruction that updates the current cell store the `n`-th iterate. -/
theorem execTimes_storeAdvance {i : Instr} {f : Byte → Byte} (hi : ∀ t, exec i t = updateCell f t) (n : Nat) (v : Byte)
    (k : Nat) : execTimes n i (s.storeAdvance v k) = .next (s.storeAdvance (f^[n] v) (k + n)) := by
  induction n generalizing v k with
  | zero => rfl
  | succ n ih =>
    have hfirst : exec i (s.storeAdvance v k) = .next (s.storeAdvance (f v) (k + 1)) :=
      (hi _).trans (updateCell_storeAdvance hd h f v k)
    rw [execTimes_succ hfirst, ih, Function.iterate_succ_apply, Nat.add_assoc, Nat.add_comm 1]

theorem execTimes_of_updateCell {i : Instr} {f : Byte → Byte} (hi : ∀ t, exec i t = updateCell f t) (n : Nat) :
    execTimes n i s = .next (s.storeAdvance (f^[n] (s.memRead s.dp)) n) := by
  calc execTimes n i s
      = execTimes n i (s.storeAdvance (s.memRead s.dp) 0) := by rw [State.storeAdvance_memRead h]; rfl
    _ = .next (s.storeAdvance (f^[n] (s.memRead s.dp)) n) := by rw [execTimes_storeAdvance hd h hi, Nat.zero_add]

end

/-! ## The two instructions -/

theorem exec_incrementValue (s : State) : exec .incrementValue s = updateCell inc8 s := rfl

theorem exec_decrementValue (s : State) : exec .decrementValue s = updateCell dec8 s := rfl

/-- 256 increments bring the cell back to its value, so the tape to what it was (R180). -/
theorem execTimes_256_incrementValue {s : State} (hd : s.dp < s.params.tapeLen) (h : s.tape.wf) :
    execTimes 256 .incrementValue s = .next { s with pc := s.pc + 256 } := by
  rw [execTimes_of_updateCell hd h exec_incrementValue, inc8_iterate_256, State.storeAdvance_memRead h]

/-- Settles O37: an update of the current cell by the 8-bit unit, whose 256th iterate is the identity. -/
theorem incrementValueEffect : Obligations.IncrementValueEffect := by
  unfold Obligations.IncrementValueEffect
  refine ⟨decode_encode .incrementValue, ofChar_of_toChar (i := .incrementValue) rfl, fun s hd h =>
    ⟨?_, execTimes_256_incrementValue hd h⟩⟩
  obtain ⟨m, hexec, hm, hread, hother⟩ := updateCell_effect hd h inc8
  exact ⟨m, hexec, hm, hread, by rw [hread, inc8_toNat], hother⟩

/-- Settles O38: an update of the current cell by the 8-bit unit, which is inverse to the one of IncrementValue. -/
theorem decrementValueEffect : Obligations.DecrementValueEffect := by
  unfold Obligations.DecrementValueEffect
  refine ⟨decode_encode .decrementValue, ofChar_of_toChar (i := .decrementValue) rfl, fun s hd h =>
    ⟨?_, updateCell_undo hd h dec8_inc8, updateCell_undo hd h inc8_dec8⟩⟩
  obtain ⟨m, hexec, hm, hread, hother⟩ := updateCell_effect hd h dec8
  exact ⟨m, hexec, hm, hread, by rw [hread, dec8_toNat], hother⟩

end Sys2Proof.Machine
end

section
/-! The I/O instructions (45_io.md): a moment that does not complete a transfer passes one sample and leaves the rest, so
that any number of them followed by a completing one is the instruction executed once, with those samples past (R198). -/

namespace Sys2Proof.Machine

theorem exec_outputValue (s : State) : exec .outputValue s = outputTransfer s := rfl

/-! ## The two channels -/

/-- The instruction suspended on the channel (R33). -/
def IoWait.instr : IoWait → Instr
  | .out => .outputValue
  | .inp => .inputValue

/-- One sample of the channel is past. -/
def Env.nextSample : IoWait → Env → Env
  | .out => Env.nextOut
  | .inp => Env.nextIn

/-- The collaborator completes a transfer on the channel at this sample (R192, R195). -/
def Env.answersNow (e : Env) : IoWait → Bool
  | .out => e.outReadyNow
  | .inp => e.inPinsNow.valid

/-- The next `n` samples of the channel complete no transfer. -/
def Env.SilentFor (e : Env) (w : IoWait) (n : Nat) : Prop :=
  ∀ j, j < n → ((Env.nextSample w)^[j] e).answersNow w = false

theorem Env.SilentFor.mono {e : Env} {w : IoWait} {m n : Nat} (h : e.SilentFor w n) (hmn : m ≤ n) : e.SilentFor w m :=
  fun j hj => h j (hj.trans_le hmn)

/-- After a silent sample of `n + 1`, `n` silent ones are left. -/
theorem Env.SilentFor.next {e : Env} {w : IoWait} {n : Nat} (h : e.SilentFor w (n + 1)) :
    (Env.nextSample w e).SilentFor w n :=
  fun j hj => h (j + 1) (Nat.succ_lt_succ hj)

/-- A sample that is past is no transaction. -/
theorem Env.nextSample_iterate_events (w : IoWait) (n : Nat) (e : Env) :
    ((Env.nextSample w)^[n] e).events = e.events := by
  induction n generalizing e with
  | zero => rfl
  | succ n ih =>
    rw [Function.iterate_succ_apply, ih]
    cases w <;> rfl

theorem State.current_of_suspended {s : State} {w : IoWait} (h : s.ioWait = some w) : s.current = some w.instr := by
  unfold State.current
  rw [h]
  cases w <;> rfl

/-! ## Moments without an answer -/

/-- What a moment of a transfer does depends on no suspension: at its dispatch it is as while suspended (log 5). -/
theorem exec_instr_setIoWait (w : IoWait) (s : State) (x : Option IoWait) :
    exec w.instr (s.setIoWait x) = exec w.instr s := by
  cases w <;> rfl

/-- A moment without an answer passes the sample and leaves the machine suspended (R191, R194). -/
theorem exec_instr_silent {s : State} {w : IoWait} (hd : s.dp < s.params.tapeLen) (h : s.env.answersNow w = false) :
    exec w.instr s = .next ((s.setEnv (Env.nextSample w s.env)).setIoWait (some w)) := by
  cases w with
  | out => exact ExecNext.exec_eq (i := .outputValue) ⟨hd, .inr ⟨h, rfl⟩⟩
  | inp => exact ExecNext.exec_eq (i := .inputValue) ⟨hd, .inl ⟨InPins.answer_eq_none.2 h, rfl⟩⟩

/-- After `n` moments without an answer the next one is the instruction's execution in the state it was dispatched in,
with `n` samples past (R198). -/
theorem run_silent_succ {s : State} {w : IoWait} {n : Nat} (hc : s.current = some w.instr)
    (hd : s.dp < s.params.tapeLen) (h : s.env.SilentFor w n) :
    run (n + 1) s = exec w.instr (s.setEnv ((Env.nextSample w)^[n] s.env)) := by
  induction n generalizing s with
  | zero => rw [run_one, step_of_current hc]; rfl
  | succ n ih =>
    have hstep : step s = .next ((s.setEnv (Env.nextSample w s.env)).setIoWait (some w)) :=
      (step_of_current hc).trans (exec_instr_silent hd (h 0 n.succ_pos))
    rw [run_succ hstep, ih (s := (s.setEnv (Env.nextSample w s.env)).setIoWait (some w))
      (State.current_of_suspended rfl) hd h.next]
    exact exec_instr_setIoWait w (s.setEnv ((Env.nextSample w)^[n + 1] s.env)) (some w)

/-- One moment or more without an answer: the machine is suspended on the channel, and only samples are past. -/
theorem run_silent {s : State} {w : IoWait} {n : Nat} (hc : s.current = some w.instr) (hd : s.dp < s.params.tapeLen)
    (hn : 1 ≤ n) (h : s.env.SilentFor w n) :
    run n s = .next ((s.setEnv ((Env.nextSample w)^[n] s.env)).setIoWait (some w)) := by
  obtain ⟨m, rfl⟩ := Nat.exists_eq_add_of_le' hn
  rw [run_silent_succ hc hd (h.mono m.le_succ), Function.iterate_succ_apply']
  exact exec_instr_silent (s := s.setEnv ((Env.nextSample w)^[m] s.env)) hd (h m m.lt_succ_self)

/-- As long as the transfer is not completed the state is the one before, but for the suspension and the samples. -/
theorem exists_run_silent {s : State} {w : IoWait} {n : Nat} (hc : s.current = some w.instr)
    (hd : s.dp < s.params.tapeLen) (hn : 1 ≤ n) (h : s.env.SilentFor w n) :
    ∃ u, run n s = .next u ∧ u = { s with ioWait := some w, env := u.env } ∧ u.env.events = s.env.events :=
  ⟨_, run_silent hc hd hn h, rfl, Env.nextSample_iterate_events w n s.env⟩

/-- A suspended machine without an answer waits in the same state (R199). -/
theorem exists_run_suspended {s : State} {w : IoWait} {n : Nat} (hw : s.ioWait = some w)
    (hd : s.dp < s.params.tapeLen) (h : s.env.SilentFor w n) :
    ∃ u, run n s = .next u ∧ u = { s with env := u.env } ∧ u.env.events = s.env.events ∧ u.busy = true := by
  rcases Nat.eq_zero_or_pos n with rfl | hn
  · exact ⟨s, rfl, rfl, rfl, State.busy_of_some hw⟩
  · obtain ⟨u, hrun, hu, hevents⟩ := exists_run_silent (State.current_of_suspended hw) hd hn h
    rw [← hw] at hu
    exact ⟨u, hrun, hu, hevents, State.busy_of_some (by rw [hu, hw])⟩

/-! ## The samples listed in the state -/

theorem Env.nextOut_iterate (n : Nat) (e : Env) :
    Env.nextOut^[n] e = { e with outReady := e.outReady.drop n, outSamples := e.outSamples + n } := by
  induction n with
  | zero => rfl
  | succ n ih => rw [Function.iterate_succ_apply', ih, Env.nextOut, List.tail_drop, Nat.add_assoc]

theorem Env.nextIn_iterate (n : Nat) (e : Env) :
    Env.nextIn^[n] e = { e with inPins := e.inPins.drop n, inSamples := e.inSamples + n } := by
  induction n with
  | zero => rfl
  | succ n ih => rw [Function.iterate_succ_apply', ih, Env.nextIn, List.tail_drop, Nat.add_assoc]

/-- The collaborator presents the listed samples in their order. -/
theorem Env.outReadyNow_iterate {e : Env} {n : Nat} {r : Bool} (h : e.outReady[n]? = some r) :
    (Env.nextOut^[n] e).outReadyNow = r := by
  obtain ⟨hn, rfl⟩ := List.getElem?_eq_some_iff.1 h
  rw [Env.nextOut_iterate, List.drop_eq_getElem_cons hn]
  rfl

theorem Env.inPinsNow_iterate {e : Env} {n : Nat} {p : InPins} (h : e.inPins[n]? = some p) :
    (Env.nextIn^[n] e).inPinsNow = p := by
  obtain ⟨hn, rfl⟩ := List.getElem?_eq_some_iff.1 h
  rw [Env.nextIn_iterate, List.drop_eq_getElem_cons hn]
  rfl

theorem Env.silentFor_out {e : Env} {n : Nat} {rest : List Bool} (h : e.outReady = List.replicate n false ++ rest) :
    e.SilentFor .out n := fun j hj =>
  Env.outReadyNow_iterate (by rw [h, List.getElem?_append_left (by simpa using hj), List.getElem?_replicate_of_lt hj])

theorem Env.silentFor_inp {e : Env} {ws rest : List InPins} (hws : ∀ w ∈ ws, w.valid = false)
    (h : e.inPins = ws ++ rest) : e.SilentFor .inp ws.length := fun j hj => by
  have hj' : e.inPins[j]? = some ws[j] := by rw [h, List.getElem?_append_left hj, List.getElem?_eq_getElem hj]
  exact (congrArg InPins.valid (Env.inPinsNow_iterate hj')).trans (hws _ (List.getElem_mem hj))

/-! ## Completion -/

/-- Settles O39: on this wire the transfer completes at its dispatch. -/
theorem outputValueCompletes : Obligations.OutputValueCompletes := by
  unfold Obligations.OutputValueCompletes
  intro s hd hw hr
  rw [exec_outputValue, outputTransfer_of_lt hd, State.offerOutput_ready hr,
    State.completeIo_of_idle (s := s.setEnv s.env.nextOut) hw]
  rfl

/-- A byte answered at the dispatch is written at `dp` (R195). -/
theorem exec_inputValue_byte {s : State} (hd : s.dp < s.params.tapeLen) (hw : s.ioWait = none)
    (hv : s.env.inPinsNow.valid = true) (he : s.env.inPinsNow.eof = false) :
    exec .inputValue s = .next { s with
      tape := s.tape.write s.dp s.env.inPinsNow.data
      pc := s.pc + 1
      env := { s.env with
        inPins := s.env.inPins.tail
        inSamples := s.env.inSamples + 1
        events := s.env.events ++ [.inp (some s.env.inPinsNow.data)] } } := by
  rw [exec_inputValue, inputTransfer_of_lt hd, State.requestInput_byte (InPins.answer_byte hv he),
    State.completeIo_of_idle (s := (s.setEnv s.env.nextIn).memWrite s.dp s.env.inPinsNow.data) hw]
  rfl

/-- Settles O40: the tape is the one with the byte written at `dp`. -/
theorem inputValueStoresByte : Obligations.InputValueStoresByte := by
  unfold Obligations.InputValueStoresByte
  intro s hd hm hw hv he
  exact ⟨_, exec_inputValue_byte hd hw hv he, Memory.read_write_same hm _ _,
    fun _ ha => Memory.read_write_other _ ha _⟩

/-- A valid answer at the dispatch, of either kind (R195, decision D9). -/
theorem exec_inputValue_answered {s : State} {p : InPins} (hd : s.dp < s.params.tapeLen) (hw : s.ioWait = none)
    (hp : s.env.inPinsNow = p) (hv : p.valid = true) :
    exec .inputValue s = .next { s with
      tape := if p.eof then s.tape else s.tape.write s.dp p.data
      pc := s.pc + 1
      env := { s.env with
        inPins := s.env.inPins.tail
        inSamples := s.env.inSamples + 1
        events := s.env.events ++ [.inp (if p.eof then none else some p.data)] } } := by
  subst hp
  cases he : s.env.inPinsNow.eof with
  | true => exact inputValueAtEndOfInput s hd hw hv he
  | false => exact exec_inputValue_byte hd hw hv he

/-! ## Suspension equals one blocking call -/

/-- Settles O43: the samples without `out_ready` are past, and the transfer completes as if it were dispatched at the
next. -/
theorem suspendedOutputEqualsOneCall : Obligations.SuspendedOutputEqualsOneCall := by
  unfold Obligations.SuspendedOutputEqualsOneCall
  intro s k rest hw hi hd hr
  have hc : s.current = some IoWait.out.instr := State.current_of_get hw hi
  have hsilent : s.env.SilentFor .out k := Env.silentFor_out hr
  refine ⟨?_, fun j hj hjk => exists_run_silent hc hd hj (hsilent.mono hjk)⟩
  have hready : (Env.nextOut^[k] s.env).outReadyNow = true := Env.outReadyNow_iterate (by simp [hr])
  calc run (k + 1) s
      = exec .outputValue (s.setEnv (Env.nextOut^[k] s.env)) := run_silent_succ hc hd hsilent
    _ = _ := outputValueCompletes (s.setEnv (Env.nextOut^[k] s.env)) hd hw hready
    _ = _ := by simp [Env.nextOut_iterate, State.setEnv, State.memRead, hr, Nat.add_assoc]

/-- Settles O44: the samples without an answer are past, and the transfer completes as if it were dispatched at the first
valid one. -/
theorem suspendedInputEqualsOneCall : Obligations.SuspendedInputEqualsOneCall := by
  unfold Obligations.SuspendedInputEqualsOneCall
  intro s waits p rest hw hi hd hwaits hv hp
  have hc : s.current = some IoWait.inp.instr := State.current_of_get hw hi
  have hsilent : s.env.SilentFor .inp waits.length := Env.silentFor_inp hwaits hp
  refine ⟨?_, fun j hj hjk => exists_run_silent hc hd hj (hsilent.mono hjk)⟩
  have hanswer : (Env.nextIn^[waits.length] s.env).inPinsNow = p := Env.inPinsNow_iterate (by simp [hp])
  calc run (waits.length + 1) s
      = exec .inputValue (s.setEnv (Env.nextIn^[waits.length] s.env)) := run_silent_succ hc hd hsilent
    _ = _ := exec_inputValue_answered (s := s.setEnv (Env.nextIn^[waits.length] s.env)) hd hw hanswer hv
    _ = _ := by simp [Env.nextIn_iterate, State.setEnv, hp, Nat.add_assoc]

/-- Settles O45: on either channel, samples that complete no transfer leave the machine waiting. -/
theorem unansweredTransferWaits : Obligations.UnansweredTransferWaits := by
  unfold Obligations.UnansweredTransferWaits
  intro s n hd
  refine ⟨fun hw ⟨rest, hr⟩ => exists_run_suspended hw hd (Env.silentFor_out hr), ?_⟩
  rintro hw ⟨ws, rest, rfl, hws, hp⟩
  exact exists_run_suspended hw hd (Env.silentFor_inp hws hp)

/-! ## One transaction for each I/O instruction -/

/-- The transactions of one execution: none where an I/O instruction suspends or another instruction runs, the
instruction's own one where an I/O instruction completes (R197). -/
theorem ExecNext.events_cases {i : Instr} {s t : State} (h : ExecNext i s t) :
    ((i = .outputValue ∨ i = .inputValue → t.ioWait ≠ none) ∧ t.env.events = s.env.events) ∨
    (t.ioWait = none ∧ i = .outputValue ∧ t.env.events = s.env.events ++ [.out (s.memRead s.dp)]) ∨
    (t.ioWait = none ∧ i = .inputValue ∧ ∃ r, t.env.events = s.env.events ++ [.inp r]) := by
  by_cases ho : i = .outputValue
  · subst ho
    obtain ⟨-, ⟨-, rfl⟩ | ⟨-, rfl⟩⟩ := h
    · exact .inr (.inl ⟨rfl, rfl, rfl⟩)
    · exact .inl ⟨fun _ => nofun, rfl⟩
  by_cases hn : i = .inputValue
  · subst hn
    obtain ⟨-, ⟨-, rfl⟩ | ⟨-, rfl⟩ | ⟨b, -, rfl⟩⟩ := h
    · exact .inl ⟨fun _ => nofun, rfl⟩
    · exact .inr (.inr ⟨rfl, rfl, none, rfl⟩)
    · exact .inr (.inr ⟨rfl, rfl, some b, rfl⟩)
  · exact .inl ⟨fun hio => absurd hio (not_or.2 ⟨ho, hn⟩), congrArg Env.events (h.frame.io ho hn).2⟩

theorem ExecNext.output_event {s t : State} (h : ExecNext .outputValue s t) (ht : t.ioWait = none) :
    t.env.events = s.env.events ++ [.out (s.memRead s.dp)] := by
  rcases h.events_cases with ⟨hw, -⟩ | ⟨-, -, he⟩ | ⟨-, hi, -⟩
  · exact absurd ht (hw (.inl rfl))
  · exact he
  · cases hi

theorem ExecNext.input_event {s t : State} (h : ExecNext .inputValue s t) (ht : t.ioWait = none) :
    ∃ r, t.env.events = s.env.events ++ [.inp r] := by
  rcases h.events_cases with ⟨hw, -⟩ | ⟨-, hi, -⟩ | ⟨-, -, he⟩
  · exact absurd ht (hw (.inr rfl))
  · cases hi
  · exact he

/-- What leaves the machine suspended makes no transaction. -/
theorem ExecNext.events_of_suspended {i : Instr} {s t : State} (h : ExecNext i s t) (ht : t.ioWait ≠ none) :
    t.env.events = s.env.events := by
  rcases h.events_cases with ⟨-, he⟩ | ⟨hw, -⟩ | ⟨hw, -⟩
  · exact he
  · exact absurd hw ht
  · exact absurd hw ht

theorem ExecNext.events_atMostOne {i : Instr} {s t : State} (h : ExecNext i s t) :
    t.env.events = s.env.events ∨ ∃ x, t.env.events = s.env.events ++ [x] := by
  rcases h.events_cases with ⟨-, he⟩ | ⟨-, -, he⟩ | ⟨-, -, r, he⟩
  · exact .inl he
  · exact .inr ⟨_, he⟩
  · exact .inr ⟨_, he⟩

/-- A transition of a suspended machine is a moment of its instruction. -/
theorem step_next_of_suspended {s t : State} {w : IoWait} (hw : s.ioWait = some w) (h : step s = .next t) :
    ExecNext w.instr s t :=
  exec_next ((step_of_current (State.current_of_suspended hw)).symm.trans h)

/-- Settles O47: an instruction makes the transactions of `ExecNext.events_cases`, and a transition executes one
instruction, the suspended one where there is one, or none. -/
theorem oneTransactionPerIoInstruction : Obligations.OneTransactionPerIoInstruction := by
  unfold Obligations.OneTransactionPerIoInstruction
  refine ⟨fun i s t h => ?_, fun s t h => ⟨fun hw => (step_next_of_suspended hw h).output_event,
    fun hw => (step_next_of_suspended hw h).input_event, ?_⟩⟩
  · have he := exec_next h
    exact ⟨by rintro rfl; exact he.output_event, by rintro rfl; exact he.input_event, fun _ => he.events_of_suspended,
      fun ho hn => (he.frame.io ho hn).symm⟩
  · rcases step_next_current h with ⟨-, rfl⟩ | ⟨i, -, he⟩
    · exact ⟨fun _ => rfl, .inl rfl⟩
    · exact ⟨he.events_of_suspended, he.events_atMostOne⟩

end Sys2Proof.Machine
end

section
/-! Control transfer and NoOp (46_jumps_noop.md R210 to R213): where each of the three goes, and that a taken JumpBackward
re-enters the loop body through its JumpForward. -/

namespace Sys2Proof.Machine

theorem State.cellIsZero_iff {s : State} : s.cellIsZero = true ↔ s.memRead s.dp = 0 := isZero8_iff _

theorem State.cellIsZero_eq_false_iff {s : State} : s.cellIsZero = false ↔ s.memRead s.dp ≠ 0 := by
  rw [← Bool.not_eq_true, State.cellIsZero_iff]

/-- Settles O48: the test of the current cell chooses the branch that `ExecNext` describes. -/
theorem jumpForwardEffect : Obligations.JumpForwardEffect := by
  unfold Obligations.JumpForwardEffect
  refine fun s hd => ⟨fun q hz hq => ?_, fun hz => ?_⟩
  · exact ExecNext.exec_eq (i := .jumpForward) ⟨hd, .inl ⟨State.cellIsZero_iff.2 hz, q, hq, rfl⟩⟩
  · exact ExecNext.exec_eq (i := .jumpForward) ⟨hd, .inr ⟨State.cellIsZero_eq_false_iff.2 hz, rfl⟩⟩

/-- Settles O49: the same test, with the branches the other way round. -/
theorem jumpBackwardEffect : Obligations.JumpBackwardEffect := by
  unfold Obligations.JumpBackwardEffect
  refine fun s hd => ⟨fun q hz hq => ?_, fun hz => ?_⟩
  · exact ExecNext.exec_eq (i := .jumpBackward) ⟨hd, .inr ⟨State.cellIsZero_eq_false_iff.2 hz, q, hq, rfl⟩⟩
  · exact ExecNext.exec_eq (i := .jumpBackward) ⟨hd, .inl ⟨State.cellIsZero_iff.2 hz, rfl⟩⟩

/-- Settles O50: NoOp is the default advance. -/
theorem noOpEffect : Obligations.NoOpEffect := by
  unfold Obligations.NoOpEffect
  exact fun s => ExecNext.exec_eq (i := .noOp) rfl

/-- The jump table sends a JumpBackward to a JumpForward before it (R29). -/
theorem Program.wf.target_jumpBackward {P : Program} (h : P.wf) {p : Nat} (hp : P.imem[p]? = some .jumpBackward) :
    ∃ q, P.target p = some q ∧ q < p ∧ P.imem[q]? = some .jumpForward := by
  obtain ⟨q, hq⟩ := target_isSome_of_jump h (.inr hp)
  rcases (target_matched h hq).1 with hm | hm
  · cases hp.symm.trans hm.opens
  · exact ⟨q, hq, hm.lt, hm.opens⟩

/-- Settles O51: the first step takes the JumpBackward; the second finds the JumpForward and, since no jump writes the
cell, does not take it. -/
theorem loopGoesRoundAgain : Obligations.LoopGoesRoundAgain := by
  unfold Obligations.LoopGoesRoundAgain
  intro s h hw hback hz
  obtain ⟨q, htarget, hlt, hforward⟩ := h.program_wf.target_jumpBackward hback
  have hfirst : step s = .next (s.setPc q) :=
    (step_of_current (State.current_of_get hw hback)).trans ((jumpBackwardEffect s h.dp_lt).1 q hz htarget)
  have hsecond : step (s.setPc q) = .next (s.setPc (q + 1)) :=
    (step_of_current (State.current_of_get (s := s.setPc q) hw hforward)).trans
      ((jumpForwardEffect (s.setPc q) h.dp_lt).2 hz)
  refine ⟨q, htarget, hlt, hforward, (run_one s).trans hfirst, ?_⟩
  rw [run_succ hfirst, run_one]
  exact hsecond

end Sys2Proof.Machine
end

section
/-! Exceptions and reset (60_exceptions.md, 70_reset_and_hazards.md): the one run-time fault, exactly when it is raised and
that it leaves the state (R223 to R225, R228), the first spare word of a construction (R227, R231), reset (R250, R251); and the
indexed Bit access of 40_cell_alu.md. -/

namespace Sys2Proof.Machine

/-! ## When an instruction stops -/

/-- The exact condition of PointerOutOfBounds (R223). -/
def State.PointerFaults (s : State) (i : Instr) : Prop :=
  (i = .incrementPointer ∧ s.dp + 1 = s.params.tapeLen) ∨ (i = .decrementPointer ∧ s.dp = 0)

theorem State.PointerFaults.exec_fault {s : State} {i : Instr} (h : s.PointerFaults i) :
    exec i s = .fault .pointerOutOfBounds := by
  rcases h with ⟨rfl, hd⟩ | ⟨rfl, hd⟩
  · exact exec_incrementPointer_atEnd hd.ge
  · exact exec_decrementPointer_atStart hd

/-- A taken jump that finds no entry (U13). -/
def State.EntryMissing (s : State) (i : Instr) : Prop :=
  (i = .jumpForward ∨ i = .jumpBackward) ∧ s.program.target s.pc = none

/-- A work that always goes on answers a next state, or finds no entry. -/
theorem atTarget_next_or_missing (s : State) (goTo : Nat → State) :
    (∃ t, atTarget s (fun q => .next (goTo q)) = .next t) ∨
      (s.program.target s.pc = none ∧ atTarget s (fun q => .next (goTo q)) = .refused .jumpTableEntryMissing) := by
  cases hq : s.program.target s.pc with
  | some q => exact .inl ⟨goTo q, atTarget_of_some hq _⟩
  | none => exact .inr ⟨rfl, by rw [atTarget, hq]⟩

/-- Where the current cell exists, an instruction answers a next state, raises PointerOutOfBounds on its exact condition, or
is a jump without its entry. -/
theorem exec_outcome (i : Instr) {s : State} (hd : s.dp < s.params.tapeLen) :
    (∃ t, exec i s = .next t) ∨ s.PointerFaults i ∨
      (s.EntryMissing i ∧ exec i s = .refused .jumpTableEntryMissing) := by
  cases i with
  | incrementPointer =>
    rcases Nat.lt_or_eq_of_le hd with hlt | heq
    · exact .inl ⟨_, ExecNext.exec_eq (i := .incrementPointer) ⟨hlt, rfl⟩⟩
    · exact .inr (.inl (.inl ⟨rfl, heq⟩))
  | decrementPointer =>
    by_cases hz : s.dp = 0
    · exact .inr (.inl (.inr ⟨rfl, hz⟩))
    · exact .inl ⟨_, ExecNext.exec_eq (i := .decrementPointer) ⟨hz, rfl⟩⟩
  | incrementValue => exact .inl ⟨_, updateCell_of_lt hd _⟩
  | decrementValue => exact .inl ⟨_, updateCell_of_lt hd _⟩
  | outputValue => exact .inl ⟨_, outputTransfer_of_lt hd⟩
  | inputValue => exact .inl ⟨_, inputTransfer_of_lt hd⟩
  | jumpForward =>
    have hexec : exec .jumpForward s = _ := execJumpForward_of_lt hd
    rw [hexec]
    split
    · exact (atTarget_next_or_missing s _).imp_right fun ⟨hnone, hr⟩ => .inr ⟨⟨.inl rfl, hnone⟩, hr⟩
    · exact .inl ⟨_, rfl⟩
  | jumpBackward =>
    have hexec : exec .jumpBackward s = _ := execJumpBackward_of_lt hd
    rw [hexec]
    split
    · exact .inl ⟨_, rfl⟩
    · exact (atTarget_next_or_missing s _).imp_right fun ⟨hnone, hr⟩ => .inr ⟨⟨.inr rfl, hnone⟩, hr⟩
  | noOp => exact .inl ⟨_, rfl⟩

/-- Nothing but a pointer instruction at its end of the tape raises PointerOutOfBounds (R223). -/
theorem exec_pointerOutOfBounds_iff {i : Instr} {s : State} (hd : s.dp < s.params.tapeLen) :
    exec i s = .fault .pointerOutOfBounds ↔ s.PointerFaults i := by
  refine ⟨fun hf => ?_, State.PointerFaults.exec_fault⟩
  rcases exec_outcome i hd with ⟨t, ht⟩ | hp | ⟨-, hr⟩
  · cases hf.symm.trans ht
  · exact hp
  · cases hf.symm.trans hr

/-- The Program of a state that meets the invariant has the entry of the jump at `pc` (R29, R228). -/
theorem State.Inv.not_entryMissing {s : State} {i : Instr} (h : s.Inv) (hi : s.program.imem[s.pc]? = some i) :
    ¬ s.EntryMissing i := by
  rintro ⟨hjump, hnone⟩
  have hget : s.program.imem[s.pc]? = some .jumpForward ∨ s.program.imem[s.pc]? = some .jumpBackward := by
    rcases hjump with rfl | rfl
    · exact .inl hi
    · exact .inr hi
  obtain ⟨q, hq⟩ := target_isSome_of_jump h.program_wf hget
  cases hnone.symm.trans hq

/-- Settles O59: a transition executes the instruction at `pc`, if any, with `dp` in range and the jump table complete. -/
theorem onlyPointerMovesStop : Obligations.OnlyPointerMovesStop := by
  unfold Obligations.OnlyPointerMovesStop
  intro s h
  cases hc : s.current with
  | none => exact .inl ⟨s, step_of_current_none hc⟩
  | some i =>
    have hi : s.program.imem[s.pc]? = some i := h.get_of_current hc
    rw [step_of_current hc]
    rcases exec_outcome i h.dp_lt with hnext | hp | ⟨hmissing, -⟩
    · exact .inl hnext
    · refine .inr ⟨hp.exec_fault, ?_⟩
      rcases hp with ⟨rfl, hd⟩ | ⟨rfl, hd⟩
      · exact ⟨h.ioWait_none hi nofun nofun, .inl ⟨hi, hd⟩⟩
      · exact ⟨h.ioWait_none hi nofun nofun, .inr ⟨hi, hd⟩⟩
    · exact absurd hmissing (h.not_entryMissing hi)

/-! ## What the host finds after the fault -/

theorem step_of_suspended_outside {s : State} (hs : s.Suspended) (hd : s.params.tapeLen ≤ s.dp) :
    step s = .fault .cellOutsideTape := by
  match hw : s.ioWait with
  | none => exact absurd hw hs
  | some .out => exact (step_suspendedOut hw).trans (atCell_of_le hd _)
  | some .inp => exact (step_suspendedInp hw).trans (atCell_of_le hd _)

/-- A pending transfer never raises PointerOutOfBounds: its cell exists, or the fault is the other one. -/
theorem State.AtFault.ioWait_none {s : State} (h : s.AtFault) : s.ioWait = none := by
  by_contra hs
  rcases Nat.lt_or_ge s.dp s.params.tapeLen with hd | hd
  · obtain ⟨t, ht⟩ := State.Suspended.exists_step_next hs hd
    cases ht.symm.trans h
  · cases (step_of_suspended_outside hs hd).symm.trans h

/-- A faulting STEP answers the fault, and leaves the state (R224). -/
theorem State.AtFault.command_step {s : State} (h : s.AtFault) : s.command .step = (s, .done .pointerOutOfBounds) :=
  (State.command_step_idle h.ioWait_none).trans (State.stepNow_fault h)

/-- Settles O31: the STEP command maps the state to itself, so any number of them does. -/
theorem faultRepeats : Obligations.FaultRepeats := by
  unfold Obligations.FaultRepeats
  intro s n h
  have hcommand : s.command .step = (s, .done .pointerOutOfBounds) := State.AtFault.command_step h
  exact ⟨Function.iterate_fixed (congrArg Prod.fst hcommand) n, hcommand⟩

/-- Settles O35: with a cell on the tape, `dp` at its last cell is `dp + 1` at its length. -/
theorem pointerFaultConditions : Obligations.PointerFaultConditions := by
  unfold Obligations.PointerFaultConditions
  refine ⟨fun i s hd => ?_, fun s => State.AtFault.command_step⟩
  have hlast : s.dp + 1 = s.params.tapeLen ↔ s.dp = s.params.tapeLen - 1 := by omega
  rw [exec_pointerOutOfBounds_iff hd, State.PointerFaults, hlast]

/-! ## The first spare word -/

/-- Index `n` is the first at which a word spells no instruction (R227). -/
def FirstSpare (ws : List OpWord) (n : Nat) : Prop :=
  (∃ w, ws[n]? = some w ∧ decode w = .invalid) ∧ ∀ j < n, ∃ w, ws[j]? = some w ∧ OpWord.wf w = true

theorem firstSpare_cons_zero (w : OpWord) (ws : List OpWord) : FirstSpare (w :: ws) 0 ↔ decode w = .invalid := by
  simp [FirstSpare]

theorem firstSpare_cons_succ (w : OpWord) (ws : List OpWord) (n : Nat) :
    FirstSpare (w :: ws) (n + 1) ↔ OpWord.wf w = true ∧ FirstSpare ws n := by
  unfold FirstSpare
  rw [Nat.forall_lt_succ_left]
  simp only [List.getElem?_cons_succ, List.getElem?_cons_zero, Option.some.injEq, exists_eq_left']
  exact and_left_comm

theorem decodeWords_cons_invalid {w : OpWord} (hw : decode w = .invalid) (k : Nat) (ws : List OpWord) :
    decodeWords k (w :: ws) = .error (.invalidOpcode k) := by
  simp only [decodeWords, hw]

theorem decodeWords_cons_error_iff {w : OpWord} {i : Instr} (hw : decode w = .instr i) {k : Nat} {ws : List OpWord}
    {e : ConstructError} : decodeWords k (w :: ws) = .error e ↔ decodeWords (k + 1) ws = .error e := by
  simp only [decodeWords, hw]
  cases decodeWords (k + 1) ws <;> simp

/-- Decoding stops exactly at the first spare word. -/
theorem decodeWords_error_iff {ws : List OpWord} {k : Nat} {e : ConstructError} :
    decodeWords k ws = .error e ↔ ∃ n, FirstSpare ws n ∧ e = .invalidOpcode (k + n) := by
  induction ws generalizing k with
  | nil => simp [decodeWords, FirstSpare]
  | cons w ws ih =>
    have hindex : ∀ n, k + 1 + n = k + (n + 1) := fun n => by omega
    rw [← Nat.or_exists_add_one]
    simp only [firstSpare_cons_zero, firstSpare_cons_succ, ← exists_decode_iff_wf]
    cases hw : decode w with
    | invalid => simp [decodeWords_cons_invalid hw, eq_comm]
    | instr i => simp [decodeWords_cons_error_iff hw, ih, hindex]

/-- The bracket-matching unit reports only brackets. -/
theorem buildProgram_ne_invalidOpcode (is : List Instr) (k : Nat) :
    buildProgram is ≠ .error (.invalidOpcode k) := by
  rw [Ne, buildProgram_error_iff, scan_error_iff_balancedFrom]
  simp [closeScan_error_iff]

/-- InvalidOpcode comes from decoding, which comes first (R231). -/
theorem construct_invalidOpcode_iff {ws : List OpWord} {k : Nat} :
    construct ws = .error (.invalidOpcode k) ↔ decodeWords 0 ws = .error (.invalidOpcode k) := by
  unfold construct
  cases decodeWords 0 ws with
  | error e => simp
  | ok is => simp [buildProgram_ne_invalidOpcode]

/-- Settles O17: decoding reports its first spare word, and only decoding reports one. -/
theorem invalidOpcodeIsTheFirstAndWins : Obligations.InvalidOpcodeIsTheFirstAndWins := by
  unfold Obligations.InvalidOpcodeIsTheFirstAndWins
  intro ws k
  rw [construct_invalidOpcode_iff, decodeWords_error_iff]
  change _ ↔ FirstSpare ws k
  simp

/-! ## Reset -/

/-- Settles O24: the reply and the state are those of `State.resetNow`, which looks at the parameters and the collaborator's
side only. -/
theorem resetTakenAtAnyTime : Obligations.ResetTakenAtAnyTime := by
  unfold Obligations.ResetTakenAtAnyTime
  intro s
  rw [State.command_reset]
  exact ⟨rfl, fun _ => rfl, rfl, rfl, rfl, rfl, rfl, rfl, rfl⟩

/-! ## Indexed Bit access -/

theorem bitAt_of_lt {w : Nat} (v : BitVec w) {k : Nat} (h : k < w) : bitAt v k = some (v.extractLsb' (w - 1 - k) 1) :=
  if_pos h

theorem bitAt_of_le {w : Nat} (v : BitVec w) {k : Nat} (h : w ≤ k) : bitAt v k = none := if_neg (Nat.not_lt.2 h)

/-- The indexed access is the item of the sequence (R104). -/
theorem bitSeq_getElem? {w : Nat} (v : BitVec w) (k : Nat) : (bitSeq v)[k]? = bitAt v k := by
  rcases Nat.lt_or_ge k w with h | h
  · rw [bitAt_of_lt v h, bitSeq, List.getElem?_map, List.getElem?_range h, Option.map_some]
  · rw [bitAt_of_le v h, List.getElem?_eq_none (by rwa [bitSeq_length])]

/-- The Bits of two values side by side are the Bits of the more significant one, then of the other. -/
theorem bitSeq_append {m n : Nat} (u : BitVec m) (v : BitVec n) : bitSeq (u ++ v) = bitSeq u ++ bitSeq v := by
  unfold bitSeq
  rw [List.range_add, List.map_append, List.map_map]
  congr 1
  · refine List.map_congr_left fun k hk => ?_
    have hk : k < m := List.mem_range.1 hk
    rw [BitVec.extractLsb'_append_eq_of_le (by omega)]
    congr 1
    omega
  · refine List.map_congr_left fun k hk => ?_
    have hk : k < n := List.mem_range.1 hk
    have hstart : m + n - 1 - (m + k) = n - 1 - k := by omega
    rw [Function.comp_apply, BitVec.extractLsb'_append_eq_of_add_le (by omega), hstart]

/-- Settles O4: the item at an index is the indexed access, which extracts one bit, and a Byte is its Nybbles side by side. -/
theorem indexedBitsMostSignificantFirst : Obligations.IndexedBitsMostSignificantFirst := by
  unfold Obligations.IndexedBitsMostSignificantFirst
  refine ⟨fun w v k => ⟨bitSeq_getElem? v k, bitAt_of_le v, fun h => ⟨_, bitAt_of_lt v h, ?_⟩⟩, fun b => ?_⟩
  · rw [BitVec.extractLsb'_toNat, Nat.shiftRight_eq_div_pow]
  · have happ : bitSeq (composeByte (high b) (low b)) = _ := bitSeq_append (high b) (low b)
    rwa [composeByte_high_low] at happ

end Sys2Proof.Machine
end
